-- ==== Sys2Proof/Word.lean ====
section
/-!
DEFINITION. The word types of the LPE: every host register and command word has 32 bits (00_scope.md R7,
`WORD_W`), a pin field 5 (`PIN_W`), a colour 24 (`COLOR_W`), the duration counter 24 (`CNT_W`).
-/
namespace Sys2Proof

/-- A host register value or a command word (R7, `WORD_W = 32`). -/
abbrev Word := BitVec 32

/-- One byte lane of the host bus (20_memory.md R47). -/
abbrev Byte := BitVec 8

/-- The PIN field of a command (R7, `PIN_W = 5`). -/
abbrev Pin := BitVec 5

/-- A colour value (R7, `COLOR_W = 24`). -/
abbrev Color := BitVec 24

/-- A value of the duration counter (R7, `CNT_W = 24`). -/
abbrev Count := BitVec 24

end Sys2Proof
end

