-- ==== Sys2Proof/Syntax.lean ====
section
/-!
DEFINITION. The commands of the LPE command set, version 1 (30_encoding.md R61): one constructor per row of
spec/opcode_table.json, the four reserved OP values among them (R67).
-/
namespace Sys2Proof

/-- A command word as its meaning sees it. Ignored fields (R68) are dropped; a reserved word keeps its 29 free
bits, which nothing reads. -/
inductive Instr where
  /-- TX: transmit one 24-bit colour on a pin (41_led_protocol.md R100). -/
  | tx (pin : Pin) (color : Color)
  /-- BRESET: hold a pin low for `T_RESET` cycles (41_led_protocol.md R106). -/
  | breset (pin : Pin)
  /-- SETLVL: set a pin's level (42_gpio_pulse.md R120). -/
  | setlvl (pin : Pin) (lvl : Bool)
  /-- DELAY: let `max(n, 1)` cycles pass (42_gpio_pulse.md R121). -/
  | delay (n : Count)
  /-- A reserved command word with OP = 0b000 (R67). -/
  | reserved000 (x : BitVec 29)
  /-- A reserved command word with OP = 0b101 (R67). -/
  | reserved101 (x : BitVec 29)
  /-- A reserved command word with OP = 0b110 (R67). -/
  | reserved110 (x : BitVec 29)
  /-- A reserved command word with OP = 0b111 (R67). -/
  | reserved111 (x : BitVec 29)
  deriving DecidableEq, Repr

namespace Instr

/-- Is it one of the four legal commands (R61)? The others are the reserved words of R67. -/
def legal : Instr → Bool
  | .tx _ _ => true
  | .breset _ => true
  | .setlvl _ _ => true
  | .delay _ => true
  | .reserved000 _ => false
  | .reserved101 _ => false
  | .reserved110 _ => false
  | .reserved111 _ => false

/-- The latch a command drives, for the three that drive one (10_state.md R24; DELAY drives none). -/
def drivenPin : Instr → Option Pin
  | .tx pin _ => some pin
  | .breset pin => some pin
  | .setlvl pin _ => some pin
  | .delay _ => none
  | .reserved000 _ => none
  | .reserved101 _ => none
  | .reserved110 _ => none
  | .reserved111 _ => none

end Instr
end Sys2Proof
end

