-- ==== Sys2Proof/Decode.lean ====
section
/-!
DEFINITION. The command decoder and encoder: 30_encoding.md R60 to R70, byte lanes 20_memory.md R47.
-/
namespace Sys2Proof

/-- `OP = word[31:29]` (R60, R61). -/
def opField (w : Word) : BitVec 3 := w.extractLsb' 29 3

/-- `PIN = word[28:24]` (R60, R66). -/
def pinField (w : Word) : Pin := w.extractLsb' 24 5

/-- `PAYLOAD = word[23:0]`: the colour of a TX, the count of a DELAY (R60, R66). -/
def payloadField (w : Word) : BitVec 24 := w.extractLsb' 0 24

/-- `LVL = word[0]` of a SETLVL (R64, R66). -/
def lvlField (w : Word) : Bool := w.getLsbD 0

/-- The 29 bits below OP, all that a reserved word has besides it (R67). -/
def freeField (w : Word) : BitVec 29 := w.extractLsb' 0 29

/-- R70: the decoder, total on every 32-bit word. -/
def decodeWord (w : Word) : Instr :=
  match (opField w).toNat with
  | 1 => .tx (pinField w) (payloadField w)
  | 2 => .breset (pinField w)
  | 3 => .setlvl (pinField w) (lvlField w)
  | 4 => .delay (payloadField w)
  | 0 => .reserved000 (freeField w)
  | 5 => .reserved101 (freeField w)
  | 6 => .reserved110 (freeField w)
  | _ => .reserved111 (freeField w)

/-- Why a byte string is no command word. -/
inductive DecodeError where
  /-- Fewer than four bytes: a command is one 32-bit word, never part of one (R60, R69). -/
  | truncatedWord (have_ : Nat)
  deriving DecidableEq, Repr

/-- R47: the word whose byte lane 0 is `b0`, lane 1 `b1`, lane 2 `b2`, lane 3 `b3`. -/
def wordOfLanes (b0 b1 b2 b3 : Byte) : Word := b3 ++ b2 ++ b1 ++ b0

/-- R47: byte lane `k` of a register value carries its bits `[8k+7 : 8k]`. -/
def laneOf (w : Word) (k : Nat) : Byte := w.extractLsb' (8 * k) 8

/-- Decode the command word that a little-endian byte string starts with; answers the rest of the string. -/
def decodeBytes : List Byte → Except DecodeError (Instr × List Byte)
  | b0 :: b1 :: b2 :: b3 :: rest => .ok (decodeWord (wordOfLanes b0 b1 b2 b3), rest)
  | [] => .error (.truncatedWord 0)
  | [_] => .error (.truncatedWord 1)
  | [_, _] => .error (.truncatedWord 2)
  | [_, _, _] => .error (.truncatedWord 3)

/-- A word put together from its three fields (R60); the fields do not overlap (R71). -/
def packWord (op : BitVec 3) (pin : Pin) (payload : BitVec 24) : Word := op ++ pin ++ payload

/-- R62 to R65, R67, R71: the word of a command, ignored bits emitted as zero (R68, R71). -/
def encode : Instr → Word
  | .tx pin color => packWord 1 pin color
  | .breset pin => packWord 2 pin 0
  | .setlvl pin lvl => packWord 3 pin (BitVec.setWidth 24 (BitVec.ofBool lvl))
  | .delay n => packWord 4 0 n
  | .reserved000 x => (0 : BitVec 3) ++ x
  | .reserved101 x => (5 : BitVec 3) ++ x
  | .reserved110 x => (6 : BitVec 3) ++ x
  | .reserved111 x => (7 : BitVec 3) ++ x

/-- The four bytes of a command word as the bus lanes carry them, lane 0 first (R47). -/
def encodeBytes (i : Instr) : List Byte :=
  [laneOf (encode i) 0, laneOf (encode i) 1, laneOf (encode i) 2, laneOf (encode i) 3]

/-- The bits of `w` at and above 32 that an opcode-table row could give an instruction: the LPE has none (R69). -/
def tableWord (nbits w : Nat) : Word := BitVec.ofNat 32 (w % 2 ^ nbits)

/-- What the decoder reads from a row of spec/opcode_table.json, laid out as the bus lanes carry it. -/
def decodeTableWord (nbits w : Nat) : Option Instr :=
  let v := tableWord nbits w
  if nbits ≤ 32 then
    match decodeBytes [laneOf v 0, laneOf v 1, laneOf v 2, laneOf v 3] with
    | .ok (i, []) => some i
    | .ok (_, _ :: _) => none
    | .error _ => none
  else none

end Sys2Proof
end

