-- ==== Sys2Proof/Config.lean ====
section
/-!
DEFINITION. The parameters of an LPE (00_scope.md R7) and the checks that make them well-formed (R9).
Every parameter is OPEN: a model takes it as an argument, so a statement holds for every well-formed value.
-/
namespace Sys2Proof

/-- The parameters fixed for one LPE (00_scope.md R7), and the chip's `T_RES_MIN`, which is "a parameter of
the chip, not of the LPE" (70_reset_and_hazards.md R171) and decides nothing but a claim about latching. -/
structure Config where
  /-- `F_CLK`, in Hz (log 21: a whole number of Hz, DESIGN CHOICE). -/
  fClk : Nat
  /-- `N_PINS`, the number of pin output latches. -/
  nPins : Nat
  /-- `BASE`, the byte address of the register window. -/
  base : Nat
  /-- `T_SHORT`, in CLK cycles. -/
  tShort : Nat
  /-- `T_LONG`, in CLK cycles. -/
  tLong : Nat
  /-- `T_RESET`, in CLK cycles. -/
  tReset : Nat
  /-- `T_RES_MIN`, the chip's documented minimum reset time, in CLK cycles. -/
  tResMin : Nat
  deriving DecidableEq, Repr

namespace Config

/-- `T_BIT = T_SHORT + T_LONG` (R8). -/
def tBit (c : Config) : Nat := c.tShort + c.tLong

/-- The largest value of the 24-bit duration counter. -/
def maxCount : Nat := 16777215

/-- R9: the seven conditions of a well-formed instance, in the rule's order. -/
def wellFormed (c : Config) : Bool :=
  decide (1 ≤ c.tShort) && decide (c.tShort < c.tLong) && decide (c.tShort + c.tLong ≤ maxCount) &&
  (decide (1 ≤ c.tReset) && decide (c.tReset ≤ maxCount)) &&
  (decide (1 ≤ c.nPins) && decide (c.nPins ≤ 32)) &&
  decide (0 < c.fClk) && decide (c.base % 256 = 0)

/-- R10: `cycles` CLK cycles last `cycles / F_CLK` seconds. -/
def seconds (c : Config) (cycles : Nat) : Rat := (cycles : Rat) / (c.fClk : Rat)

/-- R171: the premise of a claim that a BRESET latches a frame, `T_RESET >= T_RES_MIN`. -/
def resetLongEnough (c : Config) : Bool := decide (c.tResMin ≤ c.tReset)

/-- The test profile `P_T` of 95_test_vectors.md section 0. The spec gives it no `BASE`, `F_CLK` or
`T_RES_MIN`: DESIGN CHOICE, log 3. -/
def testProfile : Config where
  fClk := 16000000
  nPins := 32
  base := 0
  tShort := 1
  tLong := 2
  tReset := 10
  tResMin := 10

end Config
end Sys2Proof
end

