-- ==== Sys2Proof/Machine/State.lean ====
section
/-!
DEFINITION. The state of the LPE (10_state.md R23), the inputs it is driven by (00_scope.md R11, R12), and the
reasons a step can stop.
-/
namespace Sys2Proof.Machine

/-- `ACT.phase` (10_state.md R26): which half of a TX bit period is current. -/
inductive Phase where
  | high
  | low
  deriving DecidableEq, Repr

/-- `ACT.kind` with the fields of ACT that the kind uses (R26). A field a command does not set has no value
(I20 of 93_implementation_defined.md; log 6). -/
inductive ActKind where
  /-- A TX: `ACT.pin`, `ACT.color`, `ACT.bit`, `ACT.phase`. -/
  | tx (pin : Pin) (color : Color) (bit : BitVec 5) (phase : Phase)
  /-- A BRESET: `ACT.pin`. -/
  | breset (pin : Pin)
  /-- A SETLVL: `ACT.pin`. -/
  | setlvl (pin : Pin)
  /-- A DELAY: `ACT.pin` is ignored. -/
  | delay
  deriving DecidableEq, Repr

/-- The contents of the active-command register while `ACT.valid = 1` (R26). -/
structure Active where
  /-- `ACT.kind` and the fields that go with it. -/
  kind : ActKind
  /-- `ACT.cnt`: cycles left in the current segment, counting the current cycle. -/
  cnt : Count
  deriving DecidableEq, Repr

/-- One access of the host (20_memory.md R58). Addresses and sizes are numbers of bytes (log 16). -/
inductive Access where
  /-- `MemRead(addr, n)`. -/
  | read (addr n : Nat)
  /-- An instruction fetch from the window: "the fetch is a read and follows the read rules" (R42). -/
  | fetch (addr n : Nat)
  /-- `MemWrite(addr, n, v)`. -/
  | write (addr n : Nat) (v : Word)
  deriving DecidableEq, Repr

/-- One slot of the platform (00_scope.md R11, 60_exceptions.md R152). -/
inductive PlatformSlot where
  /-- A cycle that ends in a rising edge of CLK: RST as sampled at that edge, and the output-enable of each pin
  during the cycle (10_state.md R23). -/
  | edge (rst : Bool) (outputEnable : BitVec 32)
  /-- CLK is stopped: no edge occurs (R152). -/
  | clockStopped
  /-- Power is removed: "the state is lost" (R152). -/
  | powerLost
  deriving DecidableEq, Repr

/-- The model faults of 60_exceptions.md R141 that the machine goes on after: sticky records, which "no later
step clears". -/
structure ModelFaults where
  pinOutOfRange : Bool
  pinNotOutput : Bool
  resetTooShort : Bool
  deriving DecidableEq, Repr

/-- The state. The first five fields and `ill` are the LPE's; `wasReset`, `faults`, `host` and `platform` are the
model's own (INVENTORY.md, ## State). -/
structure State where
  /-- The parameters: configuration, not state (10_state.md R23, R33); no step changes the field (log 3). -/
  cfg : Config
  /-- The output latches: bit `p` is `OUT[p]`; there is no latch at `N_PINS` and above (R24; log 7). -/
  out : BitVec 32
  /-- PEND (R25): `none` when `PEND.valid = 0`, else the word "as written". -/
  pend : Option Word
  /-- ACT (R26): `none` when `ACT.valid = 0`. -/
  act : Option Active
  /-- ILL (R22, R28). -/
  ill : Bool
  /-- Has RST been sampled as 1 since power came up (70_reset_and_hazards.md R163; log 11)? -/
  wasReset : Bool
  /-- The faults a claim about pins, pads or latching must not have met (R141; logs 8, 9, 10, 12). -/
  faults : ModelFaults
  /-- What the host presents, from the current cycle on: none or one access a cycle (R12; log 1). -/
  host : List (Option Access)
  /-- What the platform does, from the current cycle on (log 2). -/
  platform : List PlatformSlot
  deriving DecidableEq, Repr

/-- The model faults of 60_exceptions.md R141. -/
inductive Fault where
  /-- An observation before the first RST. Raised by the step that would answer a host access there, and by
  `observePin`, `observePad`, `observeHost` and `observeLatch`. Safe: nothing can be claimed of that state (R163). -/
  | unreset
  /-- A pin-driving command entered ACT with `pin >= N_PINS`. Recorded in `State.faults`, raised by `observePin`,
  `observePad` and `observeLatch`. Safe: "a faulted run proves nothing about the pin trace" (R141). -/
  | pinOutOfRange
  /-- A TX or BRESET ran on a pin the platform had not made an output. Recorded in `State.faults`, raised by
  `observePad` and `observeLatch`. Safe: it concerns the pad and what is behind it only (R141, R170; log 26). -/
  | pinNotOutput
  /-- A BRESET ran although `T_RESET < T_RES_MIN`. Recorded in `State.faults`, raised by `observeLatch`. Safe: it
  concerns the chain's latch only (R141, R171). -/
  | resetTooShort
  deriving DecidableEq, Repr

/-- Why the model answers no state. -/
inductive Refusal where
  /-- An instruction without a meaning: no arm of `exec` answers it. Safe. -/
  | notModelled (mnemonic : String)
  /-- The parameters are ill-formed: "it has no instance, not a degraded one" (00_scope.md R9). Raised by every
  step of such a state. Safe. -/
  | illFormedConfig
  /-- PEND holds a reserved word, which "never enters PEND" (30_encoding.md R67). Raised by a step of a state that
  no run reaches (log 14). Safe. -/
  | reservedWordPending
  deriving DecidableEq, Repr

namespace State

/-- The state right after RST of an LPE with parameters `c` (10_state.md R34), before any input is placed. -/
def resetWith (c : Config) : State where
  cfg := c
  out := 0
  pend := none
  act := none
  ill := false
  wasReset := true
  faults := ⟨false, false, false⟩
  host := []
  platform := []

/-- The state right after RST on the test profile `P_T` (R34; the parameters are DESIGN CHOICE, log 3). -/
def reset : State := resetWith Config.testProfile

end State
end Sys2Proof.Machine
end

