-- ==== Sys2Proof/Machine/Operands.lean ====
section
/-!
DEFINITION. What a command's operands stand for in the machine: the duration an operand gives, the bit of a colour,
the latch a pin number names (30_encoding.md R66, 40_sequencer.md R84, R85, 20_memory.md R40). The fields are taken
from the word in Decode.lean; no operand comes from a register.
-/
namespace Sys2Proof.Machine

/-- A duration of the profile as the 24-bit counter holds it; exact on a well-formed instance (R97). -/
def toCount (cycles : Nat) : Count := BitVec.ofNat 24 cycles

/-- `Hdur(b)` of R84: the high phase of a TX bit `b`. -/
def hdur (c : Config) (b : Bool) : Count := toCount (if b then c.tLong else c.tShort)

/-- `Ldur(b)` of R84: the low phase of a TX bit `b`. -/
def ldur (c : Config) (b : Bool) : Count := toCount (if b then c.tShort else c.tLong)

/-- `color[i]` (R85, R87). -/
def colorBit (color : Color) (i : BitVec 5) : Bool := color.getLsbD i.toNat

/-- `max(n, 1)`: the duration of DELAY `n` (R85, R97). -/
def delayCycles (n : Count) : Count := if n = 0 then 1 else n

/-- Does the pin number name a latch (20_memory.md R40)? -/
def pinExists (c : Config) (pin : Pin) : Bool := decide (pin.toNat < c.nPins)

end Sys2Proof.Machine
end

