-- ==== Sys2Proof/Machine/Ops.lean ====
section
/-!
DEFINITION. The shared operations over the LPE's registers: writing a latch, loading ACT, dropping commands.

The LPE "raises no exception and takes no trap" (60_exceptions.md R140, R144) and has no return from one (R145), so
there is no exception entry and no return here; its two error indications are the response `busError` (Bus.lean)
and the sticky bit ILL (Flags.lean).
-/
namespace Sys2Proof.Machine
namespace State

/-- `OUT[p]`: the level of latch `p` (10_state.md R24). -/
def level (s : State) (p : Nat) : Bool := s.out.getLsbD p

/-- The vector `v` with bit `p` made `b`. -/
def withBit (v : BitVec 32) (p : Nat) (b : Bool) : BitVec 32 :=
  if b then v ||| (1#32 <<< p) else v &&& ~~~(1#32 <<< p)

/-- `OUT[pin] <- v` (00_scope.md R16). A pin `>= N_PINS` "names no latch" (40_sequencer.md R85). -/
def setLevel (s : State) (pin : Pin) (v : Bool) : State :=
  if pinExists s.cfg pin then { s with out := withBit s.out pin.toNat v } else s

/-- ACT takes a command in its first segment (R85). -/
def load (s : State) (kind : ActKind) (cnt : Count) : State := { s with act := some ⟨kind, cnt⟩ }

/-- Record PinOutOfRange when a command enters ACT with a pin that does not exist (60_exceptions.md R141; log 8). -/
def notePin (s : State) (pin : Pin) : State :=
  if pinExists s.cfg pin then s else { s with faults := { s.faults with pinOutOfRange := true } }

/-- A TX, BRESET or SETLVL enters ACT (R85): ACT and "the first segment's pin level together". -/
def startDriving (s : State) (pin : Pin) (v : Bool) (kind : ActKind) (cnt : Count) : State :=
  ((s.load kind cnt).setLevel pin v).notePin pin

/-- Record ResetTooShort when a BRESET runs on parameters that miss the premise of R171 (R141; log 10). -/
def noteReset (s : State) : State :=
  if s.cfg.resetLongEnough then s else { s with faults := { s.faults with resetTooShort := true } }

/-- ACT becomes idle; "retiring writes no latch" (R88). -/
def retire (s : State) : State := { s with act := none }

/-- The registers take the values of 10_state.md R34 (70_reset_and_hazards.md R160). The parameters, the fault
records (R141, "no later step clears") and the inputs are none of the LPE's registers. -/
def resetRegisters (s : State) : State :=
  { s with out := 0, pend := none, act := none, ill := false, wasReset := true }

end State
end Sys2Proof.Machine
end

