-- ==== Sys2Proof/Machine/Flags.lean ====
section
/-!
DEFINITION. The status bits (10_state.md R22, R28): ACTIVE and PENDING are views of ACT and PEND, ILL is a sticky bit
that a reserved command word sets (40_sequencer.md R93) and a STATUS write of bit 2 clears (20_memory.md R45). There
are no condition codes.
-/
namespace Sys2Proof.Machine
namespace State

/-- `STATUS.ACTIVE` = `ACT.valid` (R28). -/
def active (s : State) : Bool := s.act.isSome

/-- `STATUS.PENDING` = `PEND.valid` (R28). -/
def pending (s : State) : Bool := s.pend.isSome

/-- R28: the LPE is busy when `STATUS[1:0] != 0`. -/
def busy (s : State) : Bool := s.active || s.pending

/-- The STATUS register: `zext_32({ILL, PEND.valid, ACT.valid})` (20_memory.md R58). -/
def statusWord (s : State) : Word :=
  BitVec.setWidth 32 (BitVec.ofBool s.ill ++ BitVec.ofBool s.pending ++ BitVec.ofBool s.active)

/-- `ILL <- 1` (R93). -/
def setIll (s : State) : State := { s with ill := true }

/-- `ILL <- 0` (R45). -/
def clearIll (s : State) : State := { s with ill := false }

end State
end Sys2Proof.Machine
end

