-- ==== Sys2Proof/Machine/Gpio.lean ====
section
/-!
DEFINITION. The GPIO pulse primitives SETLVL and DELAY (42_gpio_pulse.md R120, R121) at the edge where they enter ACT
(40_sequencer.md R85).
-/
namespace Sys2Proof.Machine

/-- SETLVL: the pin driven to `lvl`, ACT taken for one cycle (R85, R120). -/
def execSetlvl (pin : Pin) (lvl : Bool) (s : State) : Host.Outcome State Fault Refusal :=
  .next (s.startDriving pin lvl (.setlvl pin) 1)

/-- DELAY: ACT taken for `max(n, 1)` cycles, no latch written (R85, R121). -/
def execDelay (n : Count) (s : State) : Host.Outcome State Fault Refusal :=
  .next (s.load .delay (delayCycles n))

end Sys2Proof.Machine
end

