-- ==== Sys2Proof/Machine/Led.lean ====
section
/-!
DEFINITION. The LED protocol commands TX and BRESET (41_led_protocol.md R100, R106) at the edge where they enter ACT
(40_sequencer.md R85). Their later cycles are `advance` in Sequencer.lean (R87; log 20).
-/
namespace Sys2Proof.Machine

/-- TX: bit 23 first, in its high phase, the pin driven high (R85, R100). -/
def execTx (pin : Pin) (color : Color) (s : State) : Host.Outcome State Fault Refusal :=
  .next (s.startDriving pin true (.tx pin color 23 .high) (hdur s.cfg (colorBit color 23)))

/-- BRESET: the pin driven low for `T_RESET` cycles (R85, R106). -/
def execBreset (pin : Pin) (s : State) : Host.Outcome State Fault Refusal :=
  .next (s.startDriving pin false (.breset pin) (toCount s.cfg.tReset)).noteReset

end Sys2Proof.Machine
end

