-- ==== Sys2Proof/Machine/Reserved.lean ====
section
/-!
DEFINITION. The reserved command words (30_encoding.md R67): at the edge of their CMD write they set ILL and change
nothing else (40_sequencer.md R93).
-/
namespace Sys2Proof.Machine

/-- A word with OP = 0b000 (R67, R93). -/
def execReserved000 (s : State) : Host.Outcome State Fault Refusal := .next s.setIll

/-- A word with OP = 0b101 (R67, R93). -/
def execReserved101 (s : State) : Host.Outcome State Fault Refusal := .next s.setIll

/-- A word with OP = 0b110 (R67, R93). -/
def execReserved110 (s : State) : Host.Outcome State Fault Refusal := .next s.setIll

/-- A word with OP = 0b111 (R67, R93). -/
def execReserved111 (s : State) : Host.Outcome State Fault Refusal := .next s.setIll

end Sys2Proof.Machine
end

