-- ==== Sys2Proof/Machine/Dispatch.lean ====
section
/-!
DEFINITION. One arm per command: what it does at the edge where it takes effect. A legal command takes effect when it
enters ACT (40_sequencer.md R85), a reserved word when it is written to CMD (R93).
-/
namespace Sys2Proof.Machine

def exec (i : Instr) (s : State) : Host.Outcome State Fault Refusal :=
  match i with
  | .tx pin color => Sys2Proof.Machine.execTx pin color s
  | .breset pin => Sys2Proof.Machine.execBreset pin s
  | .setlvl pin lvl => Sys2Proof.Machine.execSetlvl pin lvl s
  | .delay n => Sys2Proof.Machine.execDelay n s
  | .reserved000 _ => Sys2Proof.Machine.execReserved000 s
  | .reserved101 _ => Sys2Proof.Machine.execReserved101 s
  | .reserved110 _ => Sys2Proof.Machine.execReserved110 s
  | .reserved111 _ => Sys2Proof.Machine.execReserved111 s

end Sys2Proof.Machine
end

