-- ==== Sys2Proof/Machine/Sequencer.lean ====
section
/-!
DEFINITION. The sequencer's share of an edge: step 1 of the edge function (40_sequencer.md R86, R87, R88, R90).
-/
namespace Sys2Proof.Machine

/-- R86: `finishing(A)`: does the active command end with the current cycle? -/
def Active.finishing (a : Active) : Bool :=
  decide (a.cnt = 1) &&
  match a.kind with
  | .tx _ _ bit phase => decide (phase = .low) && decide (bit = 0)
  | .breset _ => true
  | .setlvl _ => true
  | .delay => true

namespace State

/-- R86: `free(S)`: can ACT take a new command at the edge that ends this cycle? -/
def free (s : State) : Bool :=
  match s.act with
  | none => true
  | some a => a.finishing

/-- R87: `advance(A)`, for an active command that does not finish at this edge. A single-segment command only counts
down; one whose count is 0, which no run reaches, stands (log 15). -/
def advance (s : State) (a : Active) : State :=
  if 1 < a.cnt.toNat then s.load a.kind (a.cnt - 1)
  else
    match a.kind with
    | .tx pin color bit .high =>
      (s.load (.tx pin color bit .low) (ldur s.cfg (colorBit color bit))).setLevel pin false
    | .tx pin color bit .low =>
      (s.load (.tx pin color (bit - 1) .high) (hdur s.cfg (colorBit color (bit - 1)))).setLevel pin true
    | .breset _ => s
    | .setlvl _ => s
    | .delay => s

/-- PEND's word leaves PEND for ACT: `PEND.valid <- 0` (R90). -/
def takePend (s : State) : State := { s with pend := none }

/-- Step 1 of R90 when ACT is free: start the pending word, or retire. -/
def startOrRetire (s : State) : Host.Outcome State Fault Refusal :=
  match s.pend with
  | some w =>
    if (decodeWord w).legal then exec (decodeWord w) s.takePend else .refused .reservedWordPending
  | none => .next s.retire

/-- Step 1 of R90: advance the active command, or start the next one, or retire. -/
def sequence (s : State) : Host.Outcome State Fault Refusal :=
  match s.act with
  | some a => if a.finishing then s.startOrRetire else .next (s.advance a)
  | none => s.startOrRetire

end State
end Sys2Proof.Machine
end

