-- ==== Sys2Proof/Machine/Bus.lean ====
section
/-!
DEFINITION. The host bus: the register window (20_memory.md R40 to R46), the answer to an access (R58) and what an
access writes at the edge that ends its cycle (step 2 of 40_sequencer.md R90; R91 to R93).
-/
namespace Sys2Proof.Machine

/-- The LPE's response to the host's request in one cycle (00_scope.md R13, 20_memory.md R46, R59). -/
inductive Response where
  /-- A read answers with a register value. -/
  | data (v : Word)
  /-- A write completes in this cycle. -/
  | completed
  /-- A CMD write does not complete in this cycle; the host presents it again (R46). -/
  | stalled
  /-- The error response `BusError(addr)` (R42). -/
  | busError (addr : Nat)
  deriving DecidableEq, Repr

/-- The byte address an access names. -/
def Access.addr : Access → Nat
  | .read addr _ => addr
  | .fetch addr _ => addr
  | .write addr _ _ => addr

/-- The number of bytes it asks for. -/
def Access.size : Access → Nat
  | .read _ n => n
  | .fetch _ n => n
  | .write _ n _ => n

/-- `off = addr[7:0]` (R57). -/
def Access.offset (x : Access) : Nat := x.addr % 256

/-- R42: only a 32-bit access at an offset that is a multiple of 4 is answered. -/
def Access.answered (x : Access) : Bool := decide (x.size = 4) && decide (x.offset % 4 = 0)

/-- R40: the platform selects the LPE when the address bits above bit 7 match `BASE`. An access that it does not
select is another device's (log 16). -/
def Access.selects (c : Config) (x : Access) : Bool := decide (x.addr / 256 = c.base / 256)

/-- The command word that an access presents to CMD: an answered write at offset 0 (20_memory.md R45). -/
def cmdWord : Option Access → Option Word
  | some (.write addr n v) => if (Access.write addr n v).answered && decide (addr % 256 = 0) then some v else none
  | some (.read _ _) => none
  | some (.fetch _ _) => none
  | none => none

/-- The value that an access writes to STATUS (R45). -/
def statusWrite : Option Access → Option Word
  | some (.write addr n v) => if (Access.write addr n v).answered && decide (addr % 256 = 4) then some v else none
  | some (.read _ _) => none
  | some (.fetch _ _) => none
  | none => none

namespace State

/-- The register value a read of offset `off` returns (R41, R58; 10_state.md R28 to R30). -/
def readReg (s : State) (off : Nat) : Word :=
  match off with
  | 0x00 => 0
  | 0x04 => s.statusWord
  | 0x08 => s.out &&& BitVec.ofNat 32 (2 ^ s.cfg.nPins - 1)
  | 0x0C => BitVec.setWidth 32 (toCount s.cfg.tShort)
  | 0x10 => BitVec.setWidth 32 (toCount s.cfg.tLong)
  | 0x14 => BitVec.setWidth 32 (toCount s.cfg.tReset)
  | 0x18 => BitVec.setWidth 32 (BitVec.ofNat 6 s.cfg.nPins)
  | _ => 0

/-- R91: is there room for a legal command word written to CMD in this cycle? -/
def accepts (s : State) : Bool := !s.pending || s.free

/-- The legal word that is accepted at the edge of a cycle with access `x`, if any (40_sequencer.md R91). -/
def acceptedWord (s : State) (x : Option Access) : Option Word :=
  match cmdWord x with
  | some v => if (decodeWord v).legal && s.accepts then some v else none
  | none => none

/-- R91, R93: the response to a CMD write of `v`; only a legal word can stall. -/
def cmdResponse (s : State) (v : Word) : Response :=
  if (decodeWord v).legal && !s.accepts then .stalled else .completed

/-- R58: the answer to an access presented in a cycle in which the LPE holds `s`. -/
def respond (s : State) (x : Access) : Response :=
  if x.answered then
    match x with
    | .read _ _ => .data (s.readReg x.offset)
    | .fetch _ _ => .data (s.readReg x.offset)
    | .write _ _ v => if x.offset = 0 then s.cmdResponse v else .completed
  else .busError x.addr

/-- 70_reset_and_hazards.md R162: the answer in a cycle whose ending edge samples RST as 1. -/
def respondInReset (x : Access) : Response :=
  if x.answered then
    match x with
    | .read _ _ => .data 0
    | .fetch _ _ => .data 0
    | .write _ _ _ => .completed
  else .busError x.addr

/-- An accepted word enters PEND "exactly as written" (R92). -/
def fillPend (s : State) (w : Word) : State := { s with pend := some w }

/-- R90 step 2 for a CMD write of `v`, decided on the state `s` held during the cycle and applied to the state `t`
that step 1 leaves. -/
def cmdWrite (s : State) (v : Word) (t : State) : Host.Outcome State Fault Refusal :=
  if (decodeWord v).legal then
    if s.accepts then .next (t.fillPend v) else .next t
  else exec (decodeWord v) t

/-- R45, R90 step 2: what a write of `v` at offset `off` does. -/
def writeReg (s : State) (off : Nat) (v : Word) (t : State) : Host.Outcome State Fault Refusal :=
  match off with
  | 0x00 => s.cmdWrite v t
  | 0x04 => if v.getLsbD 2 then .next t.clearIll else .next t
  | _ => .next t

/-- Step 2 of R90 for any access: reads and unanswered accesses change nothing (R42, R44). -/
def applyAccess (s : State) (x : Option Access) (t : State) : Host.Outcome State Fault Refusal :=
  match x with
  | some (.write addr n v) =>
    if (Access.write addr n v).answered then s.writeReg (addr % 256) v t else .next t
  | some (.read _ _) => .next t
  | some (.fetch _ _) => .next t
  | none => .next t

end State
end Sys2Proof.Machine
end

