-- ==== Sys2Proof/Machine/Edge.lean ====
section
/-!
DEFINITION. One slot of time: the edge function of 40_sequencer.md R90 with its inputs taken from the state's lists,
RST (70_reset_and_hazards.md R160 to R163), a stopped clock and a loss of power (60_exceptions.md R152).
-/
namespace Sys2Proof.Machine
namespace State

/-- What the platform does in the current slot; past the end of the list, edges with RST low and every pin an
output (log 2). -/
def slot (s : State) : PlatformSlot :=
  match s.platform with
  | p :: _ => p
  | [] => .edge false (BitVec.allOnes 32)

/-- The access the host presents to the LPE in the current cycle, if any (log 1, log 16). -/
def access (s : State) : Option Access :=
  match s.host with
  | some x :: _ => if x.selects s.cfg then some x else none
  | none :: _ => none
  | [] => none

/-- The LPE's response in the current cycle, given what RST is (R58, R162). -/
def responseWith (s : State) (rst : Bool) : Option Response :=
  match s.access with
  | some x => some (if rst then respondInReset x else s.respond x)
  | none => none

/-- The host's slots after this cycle: a stalled write is presented again, unchanged (20_memory.md R46). -/
def hostAfter (s : State) (rst : Bool) : List (Option Access) :=
  if s.responseWith rst = some .stalled then s.host else s.host.tail

/-- Is a TX or BRESET running in this cycle on a pin that the platform has not made an output (R141, R170)? -/
def padUndriven (s : State) (outputEnable : BitVec 32) : Bool :=
  match s.act with
  | some ⟨.tx pin _ _ _, _⟩ => pinExists s.cfg pin && !outputEnable.getLsbD pin.toNat
  | some ⟨.breset pin, _⟩ => pinExists s.cfg pin && !outputEnable.getLsbD pin.toNat
  | some ⟨.setlvl _, _⟩ => false
  | some ⟨.delay, _⟩ => false
  | none => false

/-- Record PinNotOutput (R141; log 9). Before the first RST there is no command to run. -/
def notePad (s : State) (undriven : Bool) : State :=
  if undriven then { s with faults := { s.faults with pinNotOutput := true } } else s

/-- The slots of this cycle are over: the inputs move on, and PinNotOutput is recorded. `s` is the state held during
the cycle, `t` what the edge makes of the registers. -/
def endCycle (s : State) (rst : Bool) (outputEnable : BitVec 32) (t : State) : State :=
  { t with host := s.hostAfter rst, platform := s.platform.tail }.notePad
    (s.wasReset && s.padUndriven outputEnable)

/-- R90 without RST: step 1, then step 2. -/
def registersAfter (s : State) : Host.Outcome State Fault Refusal :=
  match s.sequence with
  | .next t => s.applyAccess s.access t
  | .fault r => .fault r
  | .refused r => .refused r

/-- An edge before the first RST with RST low: an access is an observation (R163, R141; log 11). -/
def unresetEdge (s : State) (outputEnable : BitVec 32) : Host.Outcome State Fault Refusal :=
  match s.access with
  | some _ => .fault .unreset
  | none => .next (s.endCycle false outputEnable s)

/-- An edge with RST low after the first RST. -/
def runEdge (s : State) (outputEnable : BitVec 32) : Host.Outcome State Fault Refusal :=
  match s.registersAfter with
  | .next t => .next (s.endCycle false outputEnable t)
  | .fault r => .fault r
  | .refused r => .refused r

/-- One edge of CLK (R90): RST overrides everything. -/
def clockEdge (s : State) (rst : Bool) (outputEnable : BitVec 32) : Host.Outcome State Fault Refusal :=
  if rst then .next (s.endCycle true outputEnable s.resetRegisters)
  else if s.wasReset then s.runEdge outputEnable
  else s.unresetEdge outputEnable

/-- One slot of the platform. Without an edge "every register holds its value" (R152) and no access completes; a loss
of power leaves an LPE that must be reset again (R152, R163). -/
def passSlot (s : State) : Host.Outcome State Fault Refusal :=
  if s.cfg.wellFormed then
    match s.slot with
    | .edge rst outputEnable => s.clockEdge rst outputEnable
    | .clockStopped => .next { s with platform := s.platform.tail }
    | .powerLost => .next { s with platform := s.platform.tail, wasReset := false }
  else .refused .illFormedConfig

/-- The LPE as power comes up (R163): `s` with RST not yet seen. What the registers hold is arbitrary. -/
def powerUp (s : State) : State := { s with wasReset := false }

/-- Place a command word so that the very next step executes it (log 19): a legal word in PEND with ACT empty, a
reserved word, which never enters PEND (30_encoding.md R67), in the host's CMD write of this cycle. -/
def placeWord (s : State) (w : Word) : State :=
  let running := { s with wasReset := true, platform := .edge false (BitVec.allOnes 32) :: s.platform }
  if (decodeWord w).legal then { running with pend := some w, act := none }
  else { running with host := some (.write s.cfg.base 4 w) :: s.host }

end State
end Sys2Proof.Machine
end

