-- ==== Sys2Proof/Machine/Step.lean ====
section
/-!
DEFINITION. The step of the LPE is one slot of time, in every ordinary case one edge of CLK (00_scope.md R11, R12).
-/
namespace Sys2Proof.Machine

/-- One step (40_sequencer.md R90). -/
def step (s : State) : Host.Outcome State Fault Refusal := s.passSlot

/-- `s` with the command word `w` placed where the very next step executes it (log 19). -/
def State.withFetchWord (s : State) (nbits w : Nat) : State := s.placeWord (tableWord nbits w)

end Sys2Proof.Machine
end

