-- ==== Sys2Proof/Machine/Timing.lean ====
section
/-!
DEFINITION. The vocabulary of the timing rules: segments (40_sequencer.md R81), durations (R82), the closed form of a TX
(41_led_protocol.md R101), what is left of the active command, and the commands accepted and started along a run
(R94, R95). No step uses these; statements compare the step with them.
-/
namespace Sys2Proof.Machine

/-- A segment (R81): for `cycles` cycles latch `drive.1` is held at `drive.2`, or no pin is held. -/
structure Segment where
  drive : Option (Pin × Bool)
  cycles : Nat
  deriving DecidableEq, Repr

/-- The two segments of bit `i` of a colour (R81, R84). -/
def bitSegments (c : Config) (pin : Pin) (color : Color) (i : Nat) : List Segment :=
  [⟨some (pin, true), if color.getLsbD i then c.tLong else c.tShort⟩,
   ⟨some (pin, false), if color.getLsbD i then c.tShort else c.tLong⟩]

/-- `segs` of a TX, from bit `n - 1` down to bit 0 (R81). -/
def txSegments (c : Config) (pin : Pin) (color : Color) : Nat → List Segment
  | 0 => []
  | n + 1 => bitSegments c pin color n ++ txSegments c pin color n

/-- `segs(cmd)` of R81. A reserved word denotes no segments. -/
def segments (c : Config) : Instr → List Segment
  | .tx pin color => txSegments c pin color 24
  | .breset pin => [⟨some (pin, false), c.tReset⟩]
  | .setlvl pin lvl => [⟨some (pin, lvl), 1⟩]
  | .delay n => [⟨none, max n.toNat 1⟩]
  | .reserved000 _ => []
  | .reserved101 _ => []
  | .reserved110 _ => []
  | .reserved111 _ => []

/-- The sum of the segments' durations. -/
def totalCycles : List Segment → Nat
  | [] => 0
  | g :: rest => g.cycles + totalCycles rest

/-- `D(cmd)` of R82. -/
def duration (c : Config) (i : Instr) : Nat := totalCycles (segments c i)

/-- The level of latch `q` in cycle `t` (0 first) of a list of segments that found it at `before`: what the last segment
that drives `q` gave it. "A segment of another pin, or a pin-less segment, leaves it unchanged" (R81, R83). -/
def levelAt : List Segment → Nat → Nat → Bool → Bool
  | [], _, _, before => before
  | g :: rest, t, q, before =>
    let now := match g.drive with
      | some (p, v) => if p.toNat = q then v else before
      | none => before
    if t < g.cycles then now else levelAt rest (t - g.cycles) q now

/-- The level in which a list of segments leaves latch `q`. -/
def levelAfter : List Segment → Nat → Bool → Bool
  | [], _, before => before
  | g :: rest, q, before => levelAfter rest q (match g.drive with
      | some (p, v) => if p.toNat = q then v else before
      | none => before)

/-- The closed form of R101: the level of a TX's pin in its cycle `t` (0 first). -/
def txLevel (c : Config) (color : Color) (t : Nat) : Bool :=
  decide (t % c.tBit < if color.getLsbD (23 - t / c.tBit) then c.tLong else c.tShort)

/-- The segments of a list of commands, one command after the other (R80, R95). -/
def programSegments (c : Config) : List Instr → List Segment
  | [] => []
  | i :: rest => segments c i ++ programSegments c rest

/-- The cycles left of the active command, counting the current one (R26, R81). -/
def Active.remaining (c : Config) (a : Active) : Nat :=
  match a.kind with
  | .tx _ color bit .high => a.cnt.toNat + (ldur c (colorBit color bit)).toNat + bit.toNat * c.tBit
  | .tx _ _ bit .low => a.cnt.toNat + bit.toNat * c.tBit
  | .breset _ => a.cnt.toNat
  | .setlvl _ => a.cnt.toNat
  | .delay => a.cnt.toNat

namespace State

/-- The cycles left of the active command, 0 when there is none. -/
def remaining (s : State) : Nat :=
  match s.act with
  | some a => a.remaining s.cfg
  | none => 0

/-- The slot of `j` cycles from now. -/
def slotAfter (s : State) (j : Nat) : PlatformSlot :=
  match s.platform.drop j with
  | p :: _ => p
  | [] => .edge false (BitVec.allOnes 32)

/-- The next `k` slots are edges of CLK with RST low: the premises "CLK runs throughout" (60_exceptions.md R152) and
no reset, for `k` cycles. -/
def runsFor (s : State) (k : Nat) : Prop :=
  ∀ j, j < k → ∃ outputEnable, s.slotAfter j = .edge false outputEnable

/-- A cycle of an LPE that is past its first RST and ends in an edge with RST low. -/
def running (s : State) : Bool :=
  s.cfg.wellFormed && s.wasReset &&
  match s.slot with
  | .edge rst _ => !rst
  | .clockStopped => false
  | .powerLost => false

/-- The legal command word that is accepted in this cycle, if any (40_sequencer.md R91). -/
def accepted (s : State) : List Word :=
  if s.running then (s.acceptedWord s.access).toList else []

/-- The command word that enters ACT at the edge that ends this cycle, if any (R85, R90). -/
def started (s : State) : List Word :=
  if s.running && s.free then s.pend.toList else []

/-- The words that `pick` names in each of the next `k` cycles, in order. -/
def collect (pick : State → List Word) : Nat → State → List Word
  | 0, _ => []
  | k + 1, s =>
    pick s ++
    match step s with
    | .next t => collect pick k t
    | .fault _ => []
    | .refused _ => []

/-- How often latch `p` changes to level `v` over the next `k` edges (R104). -/
def changesTo (v : Bool) (p : Nat) : Nat → State → Nat
  | 0, _ => 0
  | k + 1, s =>
    match step s with
    | .next t => (if t.level p = v ∧ s.level p ≠ v then 1 else 0) + changesTo v p k t
    | .fault _ => 0
    | .refused _ => 0

/-- The cycles from now until everything accepted so far has ended, when a CMD write is accepted now: `e_(k-1) - a_k`
of R94, and 0 when nothing is ahead of the new command. -/
def backlog (s : State) : Nat :=
  match s.pend with
  | some w => max s.remaining 1 + duration s.cfg (decodeWord w)
  | none => s.remaining

end State

/-- The host slot that writes command word `w` to CMD (30_encoding.md R71: "one `MemWrite(BASE + 0x00, 4, word)`"). -/
def cmdSlot (c : Config) (w : Word) : Option Access := some (.write c.base 4 w)

end Sys2Proof.Machine
end

