-- ==== Sys2Proof/Machine/Asm.lean ====
section
/-!
DEFINITION. The assembler of 30_encoding.md R71 and the pseudo-commands of R72: lines, their expansion into commands,
and the host slots that issue them. WAITIDLE is "host code, not a command" (R72) and has no line here.
-/
namespace Sys2Proof.Machine

/-- One line of a program: the four commands and the pseudo-commands that are commands (R71, R72). -/
inductive AsmLine where
  | tx (pin color : Nat)
  | breset (pin : Nat)
  | setlvl (pin lvl : Nat)
  | delay (n : Nat)
  | high (pin : Nat)
  | low (pin : Nat)
  | nop
  | pulse (pin lvl cycles : Nat)
  | frame (pin : Nat) (colors : List Nat)
  deriving DecidableEq, Repr

/-- R71: "An operand out of range is an assembly error, not a truncation". -/
inductive AsmError where
  | pinRange (n : Nat)
  | colorRange (n : Nat)
  | lvlRange (n : Nat)
  | countRange (n : Nat)
  /-- `PULSE` of no cycles: R72 expands it only for `c >= 1`. -/
  | emptyPulse
  /-- The text is no line of R71 or R72. -/
  | badLine
  deriving DecidableEq, Repr

namespace AsmLine

/-- `<pin>`: 0 to 31. -/
def pinOf (n : Nat) : Except AsmError Pin :=
  if n < 32 then .ok (BitVec.ofNat 5 n) else .error (.pinRange n)

/-- `<color>`: 0 to 0xFFFFFF. -/
def colorOf (n : Nat) : Except AsmError Color :=
  if n < 16777216 then .ok (BitVec.ofNat 24 n) else .error (.colorRange n)

/-- `<lvl>`: 0 or 1. -/
def lvlOf (n : Nat) : Except AsmError Bool :=
  if n < 2 then .ok (decide (n = 1)) else .error (.lvlRange n)

/-- `<n>`: 0 to 0xFFFFFF. -/
def countOf (n : Nat) : Except AsmError Count :=
  if n < 16777216 then .ok (BitVec.ofNat 24 n) else .error (.countRange n)

/-- `TX <pin>, <c1> ... TX <pin>, <ck>` then `BRESET <pin>` (R72, FRAME). R72 gives no smallest `k`: that a FRAME of no
colour is a lone BRESET is the model's choice (log 22). -/
def frameCommands (pin : Pin) : List Nat → Except AsmError (List Instr)
  | [] => .ok [.breset pin]
  | n :: rest => do
    let color ← colorOf n
    let tail ← frameCommands pin rest
    pure (.tx pin color :: tail)

/-- The commands a line stands for (R71, R72). -/
def commands : AsmLine → Except AsmError (List Instr)
  | .tx pin color => do pure [.tx (← pinOf pin) (← colorOf color)]
  | .breset pin => do pure [.breset (← pinOf pin)]
  | .setlvl pin lvl => do pure [.setlvl (← pinOf pin) (← lvlOf lvl)]
  | .delay n => do pure [.delay (← countOf n)]
  | .high pin => do pure [.setlvl (← pinOf pin) true]
  | .low pin => do pure [.setlvl (← pinOf pin) false]
  | .nop => .ok [.delay 1]
  | .pulse _ _ 0 => .error .emptyPulse
  | .pulse pin lvl 1 => do pure [.setlvl (← pinOf pin) (← lvlOf lvl)]
  | .pulse pin lvl (c + 2) => do
    pure [.setlvl (← pinOf pin) (← lvlOf lvl), .delay (← countOf (c + 1))]
  | .frame pin colors => do frameCommands (← pinOf pin) colors

end AsmLine

/-- The commands of a program, line after line (R71: "A program is a list of lines"). -/
def assemble : List AsmLine → Except AsmError (List Instr)
  | [] => .ok []
  | line :: rest => do
    let first ← line.commands
    let tail ← assemble rest
    pure (first ++ tail)

/-- The host's slots for a list of commands: "one MemWrite(BASE + 0x00, 4, word)" each, in order (R71). -/
def hostSlots (c : Config) (is : List Instr) : List (Option Access) := is.map fun i => cmdSlot c (encode i)

/-! The text of a line (R71): a name, blanks, operands with commas between them, an optional comment. -/
namespace AsmText

/-- Blanks between the parts of a line (log 22). -/
def isBlank (ch : Char) : Bool := decide (ch = ' ') || decide (ch = '\t')

/-- A line without its comment: "`;` starts a comment" (R71). -/
def uncommented : List Char → List Char
  | [] => []
  | ch :: rest => if ch = ';' then [] else ch :: uncommented rest

/-- A text without the blanks before and after it. -/
def trimmed (text : List Char) : List Char := ((text.dropWhile isBlank).reverse.dropWhile isBlank).reverse

/-- The value of a digit in a base up to 16. -/
def digit (base : Nat) (ch : Char) : Option Nat :=
  let n := ch.toNat
  let d := if 48 ≤ n ∧ n ≤ 57 then n - 48 else if 65 ≤ n ∧ n ≤ 70 then n - 55 else if 97 ≤ n ∧ n ≤ 102 then n - 87 else 16
  if d < base then some d else none

/-- Read digits after a value `acc`. -/
def digits (base : Nat) : List Char → Nat → Option Nat
  | [], acc => some acc
  | ch :: rest, acc => match digit base ch with
    | some d => digits base rest (acc * base + d)
    | none => none

/-- "a decimal or `0x` number" (R71). -/
def number : List Char → Option Nat
  | [] => none
  | '0' :: 'x' :: [] => none
  | '0' :: 'x' :: rest => digits 16 rest 0
  | text => digits 10 text 0

/-- `<lvl>`: `0`, `1`, `LOW` or `HIGH` (R71). That any other decimal or `0x` spelling of 0 and 1 (`01`, `0x1`) stands for
the level too, in SETLVL and PULSE, is the model's choice (log 22). -/
def levelNumber : List Char → Option Nat
  | ['L', 'O', 'W'] => some 0
  | ['H', 'I', 'G', 'H'] => some 1
  | text => number text

/-- The operands of a line: what stands between its commas, trimmed. -/
def operands : List Char → List (List Char)
  | [] => []
  | text => (cut text []).map trimmed
where
  cut : List Char → List Char → List (List Char)
    | [], acc => [acc.reverse]
    | ch :: rest, acc => if ch = ',' then acc.reverse :: cut rest [] else cut rest (ch :: acc)

/-- All operands as numbers, or none of them. -/
def numbers : List (List Char) → Option (List Nat)
  | [] => some []
  | t :: rest => match number t, numbers rest with
    | some n, some ns => some (n :: ns)
    | _, _ => none

/-- The line that a name and its operands make (R71, R72). -/
def lineOf (name : List Char) (ops : List (List Char)) : Option AsmLine :=
  match name, ops with
  | ['T', 'X'], [p, c] => do pure (.tx (← number p) (← number c))
  | ['B', 'R', 'E', 'S', 'E', 'T'], [p] => do pure (.breset (← number p))
  | ['S', 'E', 'T', 'L', 'V', 'L'], [p, v] => do pure (.setlvl (← number p) (← levelNumber v))
  | ['D', 'E', 'L', 'A', 'Y'], [n] => do pure (.delay (← number n))
  | ['H', 'I', 'G', 'H'], [p] => do pure (.high (← number p))
  | ['L', 'O', 'W'], [p] => do pure (.low (← number p))
  | ['N', 'O', 'P'], [] => some .nop
  | ['P', 'U', 'L', 'S', 'E'], [p, v, c] => do pure (.pulse (← number p) (← levelNumber v) (← number c))
  | ['F', 'R', 'A', 'M', 'E'], p :: cs => do pure (.frame (← number p) (← numbers cs))
  | _, _ => none

/-- One line of text: nothing for a blank or comment line, else its assembler line. -/
def parse (text : List Char) : Except AsmError (List AsmLine) :=
  match trimmed (uncommented text) with
  | [] => .ok []
  | body =>
    let name := body.takeWhile fun ch => !isBlank ch
    match lineOf name (operands (trimmed (body.dropWhile fun ch => !isBlank ch))) with
    | some line => .ok [line]
    | none => .error .badLine

end AsmText
end Sys2Proof.Machine
end

