-- ==== Sys2Proof/Safety.lean ====
section
/-!
DEFINITION. What a claim about the LPE may observe (00_scope.md R13, 60_exceptions.md R141), the states runs go through
(10_state.md R27), and runs of several cycles.
-/
namespace Sys2Proof.Machine
namespace State

/-- The state `k` cycles on, or where the run stopped. -/
def after (k : Nat) (s : State) : Host.Outcome State Fault Refusal := Host.Core.run Sys2Proof.core k s

/-- May a register be observed in this slot? RST was seen (R163), and power is not lost in the slot; that a loss of power
takes the whole of its slot is the model's choice (R152; log 13). -/
def known (s : State) : Bool :=
  match s.slot with
  | .edge _ _ => s.wasReset
  | .clockStopped => s.wasReset
  | .powerLost => false

/-- R13 (a): the level of latch `p` in this cycle. Before the first RST it is no observation (R163), and "a faulted run
proves nothing about the pin trace" (R141); the other two recorded faults leave the latches exact (R141). -/
def observePin (s : State) (p : Nat) : Except Fault Bool :=
  if s.known then if s.faults.pinOutOfRange then .error .pinOutOfRange else .ok (s.level p) else .error .unreset

/-- Does the platform drive the pad of pin `p` from its latch in this slot, and did no TX or BRESET run without its
output-enable so far (R141, R170; log 9)? Model's choices (log 9): a pad whose output-enable is 0 in this cycle is not
driven whatever runs, where R141 and R170 name only a TX or BRESET on its pin; and nothing is claimed of a pad in a slot
without a clock edge. -/
def padDriven (s : State) (p : Nat) : Bool :=
  match s.slot with
  | .edge _ outputEnable => outputEnable.getLsbD p && !s.faults.pinNotOutput
  | .clockStopped => false
  | .powerLost => false

/-- The level on the pad of pin `p` in this cycle: the latch's, where the platform drives the pad from it (R170). Model's
choices (log 25): where several faults hold, Unreset is answered before PinOutOfRange and that before PinNotOutput; and
the claim takes R173 as its premise, that nothing but the LPE drives the pad, which no state of the LPE can show. -/
def observePad (s : State) (p : Nat) : Except Fault Bool :=
  match s.observePin p with
  | .ok level => if s.padDriven p then .ok level else .error .pinNotOutput
  | .error fault => .error fault

/-- R13 (b): the response in the current slot. In a cycle that ends in an edge it is that of R58, or of R162 where RST is
1; without an edge the access waits and there is none (log 13); before the first RST, and as power is lost, an access is
an observation that faults (R163; logs 11, 13). -/
def observeHost (s : State) : Except Fault (Option Response) :=
  match s.access with
  | none => .ok none
  | some _ =>
    if s.known then
      match s.slot with
      | .edge rst _ => .ok (s.responseWith rst)
      | .clockStopped => .ok none
      | .powerLost => .error .unreset
    else .error .unreset

/-- A claim that the frames closed so far by a BRESET latched (R141, R171). Model's choices (log 26): it faults in a run
with any fault of R141 recorded, not ResetTooShort alone; a BRESET that RST cut short (R161) closes no frame and the claim
says nothing of it; and it takes the premises of R173, R175 and R177 about what the chain received. -/
def observeLatch (s : State) : Except Fault Unit :=
  if s.known then
    if s.faults.pinOutOfRange then .error .pinOutOfRange
    else if s.faults.pinNotOutput then .error .pinNotOutput
    else if s.faults.resetTooShort then .error .resetTooShort
    else .ok ()
  else .error .unreset

/-- No fault of R141 is recorded. -/
def faultFree (s : State) : Bool := !s.faults.pinOutOfRange && !s.faults.pinNotOutput && !s.faults.resetTooShort

/-- R28: idle, `STATUS[1:0] = 0`. -/
def idle (s : State) : Bool := !s.busy

/-- Past the first RST, with well-formed parameters: the premise of every rule about a run (R9, R160). -/
def live (s : State) : Bool := s.cfg.wellFormed && s.wasReset

/-- The current cycle ends in an edge of CLK (00_scope.md R15). -/
def clocked (s : State) : Bool :=
  match s.slot with
  | .edge _ _ => true
  | .clockStopped => false
  | .powerLost => false

end State

/-- The frame of a command that takes effect: everything but ACT, the latches and the fault records stands. -/
def CommandFrame (s t : State) : Prop :=
  t.cfg = s.cfg ∧ t.pend = s.pend ∧ t.ill = s.ill ∧ t.wasReset = s.wasReset ∧ t.host = s.host ∧
    t.platform = s.platform

/-- `s` with the host silent in the current cycle in place of what it presents. -/
def State.silentNow (s : State) : State := { s with host := none :: s.host.tail }

/-- R27: what holds of the active command `a` in every state of a run. -/
def ActiveInv (s : State) (a : Active) : Prop :=
  1 ≤ a.cnt.toNat ∧
  match a.kind with
  | .tx pin color bit phase =>
    bit.toNat ≤ 23 ∧
    a.cnt.toNat ≤ (match phase with
      | .high => hdur s.cfg (colorBit color bit)
      | .low => ldur s.cfg (colorBit color bit)).toNat ∧
    (pin.toNat < s.cfg.nPins → s.level pin.toNat = decide (phase = .high))
  | .breset pin => a.cnt.toNat ≤ s.cfg.tReset ∧ (pin.toNat < s.cfg.nPins → s.level pin.toNat = false)
  | .setlvl _ => a.cnt = 1
  | .delay => True

/-- What holds of the registers in every state of a run past the first RST: no latch at `N_PINS` or above (R24), only
legal words in PEND (R25), and R27. -/
structure RegistersInv (s : State) : Prop where
  noLatchAbove : ∀ p, s.cfg.nPins ≤ p → s.level p = false
  pendLegal : ∀ w, s.pend = some w → (decodeWord w).legal = true
  active : ∀ a, s.act = some a → ActiveInv s a

/-- The legal command in PEND enters ACT at the edge that ends this cycle: the premise of the waveform rules
(40_sequencer.md R83), for a state of a run. -/
structure Starting (s : State) (i : Instr) : Prop where
  live : s.live = true
  registers : RegistersInv s
  free : s.free = true
  pending : ∃ w, s.pend = some w ∧ decodeWord w = i

/-- The invariant of a run: well-formed parameters (R9) and, past the first RST, `RegistersInv`. Before the first RST
the registers hold anything (R163). -/
def Inv (s : State) : Prop := s.cfg.wellFormed = true ∧ (s.wasReset = true → RegistersInv s)

end Sys2Proof.Machine
end

