-- ==== Sys2Proof/WellFormed.lean ====
section
/-!
DEFINITION. Which commands a well-behaved host issues to a given LPE. The fields of `Instr` have the widths of
30_encoding.md R66, so every term encodes; what is left to check is the valid-pin premise
(70_reset_and_hazards.md R172) and that the command is no reserved word (30_encoding.md R67).
-/
namespace Sys2Proof

/-- R172: a TX, BRESET or SETLVL names a pin below `N_PINS`. A command that drives no latch passes. -/
def Instr.pinValid (c : Config) (i : Instr) : Bool :=
  match i.drivenPin with
  | some p => decide (p.toNat < c.nPins)
  | none => true

/-- A legal command (R61) whose pin exists (R172). -/
def Instr.wellFormed (c : Config) (i : Instr) : Bool := i.legal && i.pinValid c

end Sys2Proof
end

