-- ==== Sys2Proof/Certificates/Slice0/Obligations.lean ====
section
/-!
DEFINITION. The statements for the provers, in the order of spec/: encoding, commands at the edge where they take effect,
the edge function, reset, the bus, the status bits, the sequencer's timing, whole-machine rules, the assembler.
-/
open Sys2Proof
open Sys2Proof.Machine

/-! Encoding (30_encoding.md). -/

/-- Decoding what the encoder emits gives the instruction back, for every instruction, as a word and as the bytes of
the bus lanes with anything after them. -/
def Obligations.DecodeOfEncodeGivesTheInstruction : Prop :=
  ∀ i : Instr, decodeWord (encode i) = i ∧
    ∀ rest : List Byte, decodeBytes (encodeBytes i ++ rest) = .ok (i, rest)

/-- R73: the worked examples, in both directions, and the range of the last line. -/
def Obligations.WorkedExamplesEncodeAndDecode : Prop :=
  (encode (.tx 0 0x000000) = 0x20000000#32 ∧ decodeWord 0x20000000#32 = .tx 0 0x000000) ∧
  (encode (.tx 31 0xFFFFFF) = 0x3FFFFFFF#32 ∧ decodeWord 0x3FFFFFFF#32 = .tx 31 0xFFFFFF) ∧
  (encode (.tx 5 0x00FF00) = 0x2500FF00#32 ∧ decodeWord 0x2500FF00#32 = .tx 5 0x00FF00) ∧
  (encode (.breset 0) = 0x40000000#32 ∧ decodeWord 0x40000000#32 = .breset 0) ∧
  (encode (.breset 31) = 0x5F000000#32 ∧ decodeWord 0x5F000000#32 = .breset 31) ∧
  (encode (.setlvl 3 false) = 0x63000000#32 ∧ decodeWord 0x63000000#32 = .setlvl 3 false) ∧
  (encode (.setlvl 31 true) = 0x7F000001#32 ∧ decodeWord 0x7F000001#32 = .setlvl 31 true) ∧
  (encode (.delay 0) = 0x80000000#32 ∧ decodeWord 0x80000000#32 = .delay 0) ∧
  (encode (.delay 0xFFFFFF) = 0x80FFFFFF#32 ∧ decodeWord 0x80FFFFFF#32 = .delay 0xFFFFFF) ∧
  decodeWord 0x00000000#32 = .reserved000 0 ∧
  (∀ w : Word, 0xE0000000 ≤ w.toNat → ∃ x, decodeWord w = .reserved111 x)

/-- R66: the operands by arithmetic on the word's number: the top three bits select the command, the next five are the
pin, the low 24 the colour or the count, bit 0 the level; the other top values are reserved. No pin is checked against
`N_PINS` when a word is written. -/
def Obligations.OperandsAreTheFieldsOfTheWord : Prop :=
  ∀ w : Word,
    (w.toNat / 2 ^ 29 = 1 →
      decodeWord w = .tx (BitVec.ofNat 5 (w.toNat / 2 ^ 24)) (BitVec.ofNat 24 w.toNat)) ∧
    (w.toNat / 2 ^ 29 = 2 → decodeWord w = .breset (BitVec.ofNat 5 (w.toNat / 2 ^ 24))) ∧
    (w.toNat / 2 ^ 29 = 3 →
      decodeWord w = .setlvl (BitVec.ofNat 5 (w.toNat / 2 ^ 24)) (decide (w.toNat % 2 = 1))) ∧
    (w.toNat / 2 ^ 29 = 4 → decodeWord w = .delay (BitVec.ofNat 24 w.toNat)) ∧
    (w.toNat / 2 ^ 29 = 0 ∨ 5 ≤ w.toNat / 2 ^ 29 → (decodeWord w).legal = false) ∧
    ∀ (s : State) (n : Nat), ({ s with cfg := { s.cfg with nPins := n } } : State).cmdResponse w = s.cmdResponse w

/-- R68: two words with the same OP that differ only in ignored bits (BRESET 23:0, SETLVL 23:1, DELAY 28:24) decode
alike and start alike. -/
def Obligations.ReservedFieldsDoNotMatter : Prop :=
  ∀ w v : Word, w.toNat / 2 ^ 29 = v.toNat / 2 ^ 29 →
    ((w.toNat / 2 ^ 29 = 2 ∧ w.toNat / 2 ^ 24 = v.toNat / 2 ^ 24) ∨
     (w.toNat / 2 ^ 29 = 3 ∧ w.toNat / 2 ^ 24 = v.toNat / 2 ^ 24 ∧ w.toNat % 2 = v.toNat % 2) ∨
     (w.toNat / 2 ^ 29 = 4 ∧ w.toNat % 2 ^ 24 = v.toNat % 2 ^ 24)) →
    decodeWord w = decodeWord v ∧
    ∀ s : State, s.free = true →
      ({ s with pend := some w } : State).sequence = ({ s with pend := some v } : State).sequence

/-- R47: byte lane `k` of a register value carries bits `8k+7` to `8k`, and the four lanes make the value. -/
def Obligations.ByteLanesAreLittleEndian : Prop :=
  ∀ w : Word,
    (laneOf w 0).toNat = w.toNat % 256 ∧ (laneOf w 1).toNat = w.toNat / 256 % 256 ∧
    (laneOf w 2).toNat = w.toNat / 65536 % 256 ∧ (laneOf w 3).toNat = w.toNat / 16777216 ∧
    wordOfLanes (laneOf w 0) (laneOf w 1) (laneOf w 2) (laneOf w 3) = w

/-! The commands at the edge where they take effect (40_sequencer.md R85, R93), in every state. -/

/-- TX enters ACT with bit 23 in its high phase and its pin high; a pin that does not exist writes no latch and is
recorded (R141); nothing else changes. -/
def Obligations.TxEntersActWithBit23High : Prop :=
  ∀ (pin : Pin) (color : Color) (s : State), ∃ t, exec (.tx pin color) s = .next t ∧
    t.act = some ⟨.tx pin color 23 .high, toCount (if color.getLsbD 23 then s.cfg.tLong else s.cfg.tShort)⟩ ∧
    (pin.toNat < s.cfg.nPins → t.level pin.toNat = true ∧ t.faults = s.faults) ∧
    (s.cfg.nPins ≤ pin.toNat → t.out = s.out ∧ t.faults = { s.faults with pinOutOfRange := true }) ∧
    (∀ q, q ≠ pin.toNat → t.level q = s.level q) ∧ CommandFrame s t

/-- BRESET enters ACT for `T_RESET` cycles with its pin low; a pin that does not exist is recorded (R141); nothing else
changes. R141 ties ResetTooShort to a claim that a frame latched: that it is recorded here, as a BRESET enters ACT with
`T_RESET` below the chip's minimum, is the model's choice (log 10). -/
def Obligations.BresetEntersActWithThePinLow : Prop :=
  ∀ (pin : Pin) (s : State), ∃ t, exec (.breset pin) s = .next t ∧
    t.act = some ⟨.breset pin, toCount s.cfg.tReset⟩ ∧
    (pin.toNat < s.cfg.nPins → t.level pin.toNat = false ∧ t.faults.pinOutOfRange = s.faults.pinOutOfRange) ∧
    (s.cfg.nPins ≤ pin.toNat → t.out = s.out ∧ t.faults.pinOutOfRange = true) ∧
    (s.cfg.tResMin ≤ s.cfg.tReset → t.faults.resetTooShort = s.faults.resetTooShort) ∧
    (s.cfg.tReset < s.cfg.tResMin → t.faults.resetTooShort = true) ∧
    t.faults.pinNotOutput = s.faults.pinNotOutput ∧
    (∀ q, q ≠ pin.toNat → t.level q = s.level q) ∧ CommandFrame s t

/-- SETLVL enters ACT for one cycle with its pin at the operand's level; a pin that does not exist writes no latch and
is recorded (R141); nothing else changes. -/
def Obligations.SetlvlEntersActWithThePinAtTheLevel : Prop :=
  ∀ (pin : Pin) (lvl : Bool) (s : State), ∃ t, exec (.setlvl pin lvl) s = .next t ∧
    t.act = some ⟨.setlvl pin, 1⟩ ∧
    (pin.toNat < s.cfg.nPins → t.level pin.toNat = lvl ∧ t.faults = s.faults) ∧
    (s.cfg.nPins ≤ pin.toNat → t.out = s.out ∧ t.faults = { s.faults with pinOutOfRange := true }) ∧
    (∀ q, q ≠ pin.toNat → t.level q = s.level q) ∧ CommandFrame s t

/-- DELAY enters ACT for `max(n, 1)` cycles; no latch and nothing else changes. -/
def Obligations.DelayEntersActForItsCycles : Prop :=
  ∀ (n : Count) (s : State), ∃ t, exec (.delay n) s = .next t ∧
    (∃ cnt, t.act = some ⟨.delay, cnt⟩ ∧ cnt.toNat = max n.toNat 1) ∧
    t.out = s.out ∧ t.faults = s.faults ∧ CommandFrame s t

/-- R93: each of the four reserved words sets ILL and changes nothing else. -/
def Obligations.ReservedWordsSetIllOnly : Prop :=
  ∀ (x : BitVec 29) (s : State),
    exec (.reserved000 x) s = .next { s with ill := true } ∧
    exec (.reserved101 x) s = .next { s with ill := true } ∧
    exec (.reserved110 x) s = .next { s with ill := true } ∧
    exec (.reserved111 x) s = .next { s with ill := true }

/-! The edge (40_sequencer.md R90). -/

/-- A step runs the decoded command: `exec` of the word in PEND when ACT is free, and `exec` of a reserved word written
to CMD, with the rest of the edge around it: PEND emptied before, the host's access applied after, the inputs moved on. -/
def Obligations.StepRunsTheDecodedCommand : Prop :=
  ∀ (s : State) (oe : BitVec 32), s.live = true → s.slot = .edge false oe →
    (∀ w i, s.free = true → s.pend = some w →
      decodeBytes [laneOf w 0, laneOf w 1, laneOf w 2, laneOf w 3] = .ok (i, []) → i.legal = true →
      ∃ t u, exec i s.takePend = .next t ∧ s.applyAccess s.access t = .next u ∧
        step s = .next (s.endCycle false oe u)) ∧
    (∀ addr v t i, s.access = some (.write addr 4 v) → addr % 256 = 0 →
      decodeBytes [laneOf v 0, laneOf v 1, laneOf v 2, laneOf v 3] = .ok (i, []) → i.legal = false →
      s.sequence = .next t →
      ∃ u, exec i t = .next u ∧ step s = .next (s.endCycle false oe u))

/-- R90: with nothing to start, step 1 is `advance` or retiring, and the host's access is applied after it. -/
def Obligations.StepAdvancesOrRetiresOtherwise : Prop :=
  ∀ (s : State) (oe : BitVec 32), s.live = true → s.slot = .edge false oe →
    (∀ a, s.act = some a → a.finishing = false →
      ∃ u, s.applyAccess s.access (s.advance a) = .next u ∧ step s = .next (s.endCycle false oe u)) ∧
    (s.free = true → s.pend = none →
      ∃ u, s.applyAccess s.access s.retire = .next u ∧ step s = .next (s.endCycle false oe u) ∧
        u.act = none ∧ u.out = s.out)

/-- R9: the seven conditions, and no step of an LPE that misses one. -/
def Obligations.IllFormedParametersHaveNoMachine : Prop :=
  (∀ c : Config, c.wellFormed = true ↔
    (1 ≤ c.tShort ∧ c.tShort < c.tLong ∧ c.tShort + c.tLong ≤ 2 ^ 24 - 1 ∧ 1 ≤ c.tReset ∧ c.tReset ≤ 2 ^ 24 - 1 ∧
     1 ≤ c.nPins ∧ c.nPins ≤ 32 ∧ 0 < c.fClk ∧ c.base % 0x100 = 0)) ∧
  (∀ s : State, s.cfg.wellFormed = false → step s = .refused .illFormedConfig)

/-- R10: `cycles` CLK cycles last `cycles / F_CLK` seconds, and one is shorter than a microsecond exactly when
`F_CLK > 1 MHz`. -/
def Obligations.CycleIsSubMicrosecondAboveOneMegahertz : Prop :=
  ∀ c : Config, 0 < c.fClk →
    (∀ cycles : Nat, c.seconds cycles * (c.fClk : Rat) = (cycles : Rat)) ∧
    (c.seconds 1 < 1 / 1000000 ↔ 1000000 < c.fClk)

/-! Reset and the platform (70_reset_and_hazards.md R160 to R163, 60_exceptions.md R152). -/

/-- R160: an edge with RST high leaves the reset state, whatever the state and the access; the parameters and the
registers that show them stand. -/
def Obligations.RstTakesTheResetState : Prop :=
  ∀ (s : State) (oe : BitVec 32), s.cfg.wellFormed = true → s.slot = .edge true oe →
    ∃ t, step s = .next t ∧ (∀ p, t.level p = false) ∧ t.pend = none ∧ t.act = none ∧ t.ill = false ∧
      t.readReg 0x04 = 0 ∧ t.readReg 0x08 = 0 ∧ t.cfg = s.cfg ∧
      (∀ off, off = 0x0C ∨ off = 0x10 ∨ off = 0x14 ∨ off = 0x18 → t.readReg off = s.readReg off)

/-- R162: in a reset cycle a read answers 0, a write completes, a BusError-class access errs, and none has an effect. -/
def Obligations.ResetCycleAnswersAndDiscards : Prop :=
  ∀ (s : State) (oe : BitVec 32) (x : Access), s.cfg.wellFormed = true → s.slot = .edge true oe →
    s.access = some x →
    (x.answered = false → s.responseWith true = some (.busError x.addr)) ∧
    (x.answered = true → (∀ addr n, x = .read addr n ∨ x = .fetch addr n → s.responseWith true = some (.data 0)) ∧
      (∀ addr n v, x = .write addr n v → s.responseWith true = some .completed)) ∧
    (s.wasReset = true → s.observeHost = .ok (s.responseWith true)) ∧
    step s = step s.silentNow

/-- R163: before the first RST every observation faults Unreset, and the LPE stays so until an edge with RST high. That a
host access is an observation, that cycles without one pass, and that Unreset is answered before the other faults, is the
model's reading (logs 11, 25). -/
def Obligations.NothingIsObservableBeforeTheFirstRst : Prop :=
  ∀ s : State, s.cfg.wellFormed = true → s.wasReset = false →
    (∀ p, s.observePin p = .error .unreset ∧ s.observePad p = .error .unreset) ∧ s.observeLatch = .error .unreset ∧
    (∀ x, s.access = some x → s.observeHost = .error .unreset) ∧
    (∀ oe, s.slot = .edge false oe →
      (∀ x, s.access = some x → step s = .fault .unreset) ∧
      (s.access = none → ∃ t, step s = .next t ∧ t.wasReset = false)) ∧
    (∀ oe, s.slot = .edge true oe → ∃ t, step s = .next t ∧ t.wasReset = true)

/-- R152: without an edge every register, and the access the host presents, stays as it is; a loss of power leaves an LPE
that must be reset again. The slots without an edge, that an access waits in them without a response, and that a loss of
power takes its whole slot are the model's choices (log 13). -/
def Obligations.StoppedClockHoldsEveryRegister : Prop :=
  ∀ s : State, s.cfg.wellFormed = true →
    (s.slot = .clockStopped → step s = .next { s with platform := s.platform.tail } ∧
      (s.wasReset = true → s.observeHost = .ok none)) ∧
    (s.slot = .powerLost → (∀ p, s.observePin p = .error .unreset) ∧
      ∃ t, step s = .next t ∧ t.wasReset = false ∧ t.host = s.host)

/-- R13, R141: each observation answers a value exactly where none of its faults holds, and the value is the latch's level
or the response of the cycle. That the claim of a latched frame faults with every recorded fault is the model's choice
(log 26), and so is that a pad claim needs a clock edge and the output-enable of its cycle also while no TX or BRESET runs
on the pin (log 9). -/
def Obligations.ObservationsAnswerWhereNoFaultHolds : Prop :=
  ∀ (s : State) (p : Nat) (b : Bool),
    (s.observePin p = .ok b ↔
      s.wasReset = true ∧ s.slot ≠ .powerLost ∧ s.faults.pinOutOfRange = false ∧ s.level p = b) ∧
    (s.observePad p = .ok b ↔
      s.observePin p = .ok b ∧ s.faults.pinNotOutput = false ∧ ∃ rst oe, s.slot = .edge rst oe ∧ oe.getLsbD p = true) ∧
    (s.observeLatch = .ok () ↔ s.wasReset = true ∧ s.slot ≠ .powerLost ∧ s.faultFree = true) ∧
    (∀ rst oe, s.wasReset = true → s.slot = .edge rst oe → s.observeHost = .ok (s.responseWith rst))

/-! The bus (20_memory.md). -/

/-- R42: an access that is not 32 bits wide at a 4-aligned offset is answered BusError and changes no state; a fetch is
answered as a read. -/
def Obligations.OtherAccessesErrAndChangeNothing : Prop :=
  (∀ (s : State) (x : Access), x.size ≠ 4 ∨ x.addr % 4 ≠ 0 →
    s.respond x = .busError x.addr ∧ State.respondInReset x = .busError x.addr ∧
    (s.live = true → s.clocked = true → s.access = some x → step s = step s.silentNow)) ∧
  (∀ (s : State) (addr n : Nat), s.respond (.fetch addr n) = s.respond (.read addr n))

/-- R43: the reserved offsets 0x1C to 0xFC, at 32-bit aligned width. -/
def Obligations.ReservedOffsetsReadZeroAndIgnoreWrites : Prop :=
  ∀ (s : State) (addr : Nat), 0x1C ≤ addr % 256 → addr % 4 = 0 →
    s.respond (.read addr 4) = .data 0 ∧ (∀ v, s.respond (.write addr 4 v) = .completed) ∧
    (s.live = true → s.clocked = true → (s.access = some (.read addr 4) ∨ ∃ v, s.access = some (.write addr 4 v)) →
      step s = step s.silentNow)

/-- R44: a read never stalls, answers the register held during its cycle, looks at the latches, the parameters and the
three status bits alone, and has no effect, and neither has a fetch (R42); a read of CMD answers 0, whatever PEND holds
(R29, R55). -/
def Obligations.ReadsCompleteAndHaveNoEffect : Prop :=
  ∀ (s : State) (addr : Nat), addr % 4 = 0 →
    s.respond (.read addr 4) = .data (s.readReg (addr % 256)) ∧
    (addr % 256 = 0 → s.respond (.read addr 4) = .data 0) ∧
    (∀ s' : State, s'.cfg = s.cfg → s'.out = s.out → s'.pending = s.pending → s'.active = s.active → s'.ill = s.ill →
      s'.respond (.read addr 4) = s.respond (.read addr 4)) ∧
    (s.live = true → s.clocked = true → (s.access = some (.read addr 4) ∨ s.access = some (.fetch addr 4)) →
      step s = step s.silentNow)

/-- R30: the read-only information registers. -/
def Obligations.InformationRegistersShowLatchesAndParameters : Prop :=
  ∀ s : State, s.cfg.wellFormed = true →
    (∀ p, (s.readReg 0x08).getLsbD p = (decide (p < s.cfg.nPins) && s.level p)) ∧
    (s.readReg 0x0C).toNat = s.cfg.tShort ∧ (s.readReg 0x10).toNat = s.cfg.tLong ∧
    (s.readReg 0x14).toNat = s.cfg.tReset ∧ (s.readReg 0x18).toNat = s.cfg.nPins ∧
    (∀ addr, addr % 4 = 0 → s.respond (.read addr 4) = .data (s.readReg (addr % 256))) ∧
    s.resetRegisters.readReg 0x08 = 0 ∧
    (∀ off, off = 0x0C ∨ off = 0x10 ∨ off = 0x14 ∨ off = 0x18 → s.resetRegisters.readReg off = s.readReg off) ∧
    (∀ addr v, addr % 256 = 0x08 ∨ addr % 256 = 0x0C ∨ addr % 256 = 0x10 ∨ addr % 256 = 0x14 ∨ addr % 256 = 0x18 →
      s.respond (.write addr 4 v) = .completed ∧
      (s.live = true → s.clocked = true → s.access = some (.write addr 4 v) → step s = step s.silentNow))

/-- R28: the fields of STATUS, busy and idle, the reset value, and what a write does: bit 2 of the value clears ILL,
the other bits do nothing. -/
def Obligations.StatusShowsActivePendingIll : Prop :=
  ∀ s : State,
    ((s.readReg 0x04).getLsbD 0 = s.act.isSome ∧ (s.readReg 0x04).getLsbD 1 = s.pend.isSome ∧
     (s.readReg 0x04).getLsbD 2 = s.ill ∧ ∀ k, 3 ≤ k → (s.readReg 0x04).getLsbD k = false) ∧
    (s.busy = true ↔ (s.readReg 0x04).toNat % 4 ≠ 0) ∧ (s.idle = true ↔ (s.readReg 0x04).toNat % 4 = 0) ∧
    s.resetRegisters.readReg 0x04 = 0 ∧
    (∀ oe addr v, s.live = true → s.slot = .edge false oe → s.access = some (.write addr 4 v) → addr % 256 = 0x04 →
      s.responseWith false = some .completed ∧
      (v.getLsbD 2 = false → step s = step s.silentNow) ∧
      (v.getLsbD 2 = true → ∀ t, step s.silentNow = .next t → step s = .next { t with ill := false }))

/-- R22: ACTIVE and PENDING are views of ACT and PEND; ILL is 1 after a step exactly if the step set it (a reserved word
written to CMD) or it was 1 and the step did not clear it (RST, or a write of 1 to STATUS bit 2). A step in
which power is lost, and the state with it (R152), is shut out. -/
def Obligations.StatusBitsChangeOnlyAsStated : Prop :=
  ∀ s t : State, s.wasReset = true → step s = .next t → t.wasReset = true →
    ((t.readReg 0x04).getLsbD 0 = t.act.isSome ∧ (t.readReg 0x04).getLsbD 1 = t.pend.isSome ∧
      (t.readReg 0x04).getLsbD 2 = t.ill) ∧
    (t.ill = true ↔
      ((∃ oe, s.slot = .edge false oe) ∧
        ∃ addr v, s.access = some (.write addr 4 v) ∧ addr % 256 = 0 ∧ (decodeWord v).legal = false) ∨
      (s.ill = true ∧ ¬ (∃ oe, s.slot = .edge true oe) ∧
        ¬ ((∃ oe, s.slot = .edge false oe) ∧
          ∃ addr v, s.access = some (.write addr 4 v) ∧ addr % 256 = 4 ∧ v.getLsbD 2 = true)))

/-- R67: a reserved word written to CMD completes at once whatever the queue holds, sets ILL, and changes nothing else. -/
def Obligations.ReservedWordIsDiscardedAndSetsIll : Prop :=
  ∀ (s : State) (oe : BitVec 32) (addr : Nat) (v : Word), s.live = true → s.slot = .edge false oe →
    s.access = some (.write addr 4 v) → addr % 256 = 0 →
    v.toNat / 2 ^ 29 = 0 ∨ 5 ≤ v.toNat / 2 ^ 29 →
    s.responseWith false = some .completed ∧
    ∀ t, step s.silentNow = .next t → step s = .next { t with ill := true }

/-- R92: an accepted legal word is in PEND from the next cycle, exactly as written; accepting it changes no pin and
not ILL. -/
def Obligations.AcceptedWordIsPendingAsWritten : Prop :=
  ∀ (s : State) (oe : BitVec 32) (addr : Nat) (v : Word), s.live = true → RegistersInv s →
    s.slot = .edge false oe → s.access = some (.write addr 4 v) → addr % 256 = 0 →
    (decodeWord v).legal = true → s.pend = none ∨ s.free = true →
    s.responseWith false = some .completed ∧
    ∃ t u, step s = .next t ∧ step s.silentNow = .next u ∧ t = { u with pend := some v } ∧
      (t.readReg 0x04).getLsbD 1 = true

/-- R91: a legal word that finds PEND full and ACT not finishing stalls: nothing changes by it, and it is presented
again in the next cycle. -/
def Obligations.LegalWordStallsWhileTheQueueIsFull : Prop :=
  ∀ (s : State) (oe : BitVec 32) (addr : Nat) (v : Word), s.live = true → RegistersInv s →
    s.slot = .edge false oe → s.access = some (.write addr 4 v) → addr % 256 = 0 →
    (decodeWord v).legal = true → s.pend ≠ none → s.free = false →
    s.responseWith false = some .stalled ∧
    ∃ t, step s = .next t ∧ step { s with host := none :: s.host } = .next t ∧ t.host = s.host ∧ t.pend = s.pend

/-- R46, R91: a stalled write is presented, and stalls, in every cycle up to the one in which the active command
finishes, and is accepted there. -/
def Obligations.StallLastsUntilTheActiveCommandFinishes : Prop :=
  ∀ (s : State) (addr : Nat) (v : Word), s.live = true → RegistersInv s →
    s.access = some (.write addr 4 v) → addr % 256 = 0 → (decodeWord v).legal = true →
    s.pend ≠ none → s.free = false → s.runsFor s.remaining →
    (∀ j, j + 1 < s.remaining →
      ∃ u, s.after j = .next u ∧ u.host = s.host ∧ u.responseWith false = some .stalled) ∧
    (∃ u, s.after (s.remaining - 1) = .next u ∧ u.host = s.host ∧ u.free = true ∧
      u.responseWith false = some .completed)

/-! The sequencer (40_sequencer.md, 41_led_protocol.md, 42_gpio_pulse.md). -/

/-- R84: the phases of a TX bit, and the period they add up to. -/
def Obligations.PhasesOfABitAddUpToTheBitPeriod : Prop :=
  ∀ (c : Config) (b : Bool), c.wellFormed = true →
    (hdur c b).toNat = (if b then c.tLong else c.tShort) ∧
    (ldur c b).toNat = (if b then c.tShort else c.tLong) ∧
    (hdur c b).toNat + (ldur c b).toNat = c.tShort + c.tLong

/-- R82: the duration of each command, and its bounds. -/
def Obligations.DurationsOfTheCommands : Prop :=
  ∀ c : Config, c.wellFormed = true →
    (∀ pin color, duration c (.tx pin color) = 24 * (c.tShort + c.tLong)) ∧
    (∀ pin, duration c (.breset pin) = c.tReset) ∧
    (∀ pin lvl, duration c (.setlvl pin lvl) = 1) ∧
    (∀ n : Count, duration c (.delay n) = max n.toNat 1) ∧
    (∀ i : Instr, i.legal = true → 1 ≤ duration c i ∧ duration c i ≤ 24 * (2 ^ 24 - 1))

/-- R83: a command that enters ACT plays its segments: ACT stays valid, and free holds in its last cycle alone; every
latch shows what the segments drive, or keeps its level; the cycle after the last one starts the next command if one
was in PEND, or is idle. -/
def Obligations.CommandPlaysItsSegments : Prop :=
  ∀ (s : State) (i : Instr), Starting s i → s.runsFor (1 + duration s.cfg i) →
    (∀ t, t < duration s.cfg i → ∃ u, s.after (1 + t) = .next u ∧ u.active = true ∧
      u.free = decide (t + 1 = duration s.cfg i) ∧
      ∀ q, q < s.cfg.nPins → u.level q = levelAt (segments s.cfg i) t q (s.level q)) ∧
    (∃ u v, s.after (duration s.cfg i) = .next u ∧ s.after (1 + duration s.cfg i) = .next v ∧
      (u.pend = none → v.act = none) ∧ (∀ w, u.pend = some w → u.started = [w] ∧ v.active = true))

/-- R101: a TX in closed form. -/
def Obligations.TxFollowsTheClosedForm : Prop :=
  ∀ (s : State) (pin : Pin) (color : Color) (t : Nat), Starting s (.tx pin color) → pin.toNat < s.cfg.nPins →
    t < 24 * s.cfg.tBit → s.runsFor (1 + t) →
    ∃ u, s.after (1 + t) = .next u ∧
      (t % s.cfg.tBit < (if color.getLsbD (23 - t / s.cfg.tBit) then s.cfg.tLong else s.cfg.tShort) →
        u.level pin.toNat = true) ∧
      ((if color.getLsbD (23 - t / s.cfg.tBit) then s.cfg.tLong else s.cfg.tShort) ≤ t % s.cfg.tBit →
        u.level pin.toNat = false)

/-- R104: a TX has 48 level writes (its segments) and, from a low pin, 24 rising and 24 falling transitions; from a high
pin 23 rising and 24 falling. -/
def Obligations.TxMakesFortyEightTransitionsFromLow : Prop :=
  ∀ (s : State) (pin : Pin) (color : Color), Starting s (.tx pin color) → pin.toNat < s.cfg.nPins →
    s.runsFor (24 * s.cfg.tBit) →
    (segments s.cfg (.tx pin color)).length = 48 ∧
    s.changesTo false pin.toNat (24 * s.cfg.tBit) = 24 ∧
    (s.level pin.toNat = false → s.changesTo true pin.toNat (24 * s.cfg.tBit) = 24) ∧
    (s.level pin.toNat = true → s.changesTo true pin.toNat (24 * s.cfg.tBit) = 23)

/-- R107: a BRESET that follows a TX on its pin with no gap makes the line low for the TX's last low phase and
`T_RESET` cycles more, and no cycle longer to the front. -/
def Obligations.LowTimeOfATxAndItsBreset : Prop :=
  ∀ (s : State) (pin : Pin) (color : Color) (rest : List (Option Access)) (last : Nat),
    Starting s (.tx pin color) → pin.toNat < s.cfg.nPins →
    s.host = cmdSlot s.cfg (encode (.breset pin)) :: rest →
    last = (if color.getLsbD 0 then s.cfg.tShort else s.cfg.tLong) →
    s.runsFor (24 * s.cfg.tBit + s.cfg.tReset) →
    (∀ t, 24 * s.cfg.tBit - last ≤ t → t < 24 * s.cfg.tBit + s.cfg.tReset →
      ∃ u, s.after (1 + t) = .next u ∧ u.level pin.toNat = false) ∧
    (∃ u, s.after (24 * s.cfg.tBit - last) = .next u ∧ u.level pin.toNat = true)

/-- R94: a command accepted now, with `backlog` cycles until the commands before it have ended, enters ACT so that it
starts in cycle `max (now + 2) (now + backlog)`; until then it waits in PEND and, once it is there, nothing starts. -/
def Obligations.CommandStartsAtTheLaterOfTwoCyclesAndTheBacklog : Prop :=
  ∀ (s : State) (w : Word) (n : Nat), s.live = true → RegistersInv s → s.accepted = [w] →
    n + 1 = max 2 s.backlog → s.runsFor (n + 1) →
    (∃ u v, s.after n = .next u ∧ u.pend = some w ∧ u.started = [w] ∧
      s.after (n + 1) = .next v ∧ v.active = true ∧ v.remaining = duration s.cfg (decodeWord w)) ∧
    (∀ j, 1 ≤ j → j < n → ∃ u, s.after j = .next u ∧ u.pend = some w ∧ u.started = [])

/-- R176: after a command accepted now, a legal word that the host presents within that command's duration, with no other
legal word before it, is accepted two cycles before the command's end at the latest and starts when it ends: no underrun. -/
def Obligations.NoUnderrunWhenTheNextWriteComesInTime : Prop :=
  ∀ (s : State) (w v : Word) (slot : Option Access) (between rest : List (Option Access)) (n : Nat),
    s.live = true → RegistersInv s → s.accepted = [w] →
    s.host = slot :: (between ++ cmdSlot s.cfg v :: rest) →
    (∀ x ∈ between, ∀ u, cmdWord x = some u → (decodeWord u).legal = false) → (decodeWord v).legal = true →
    between.length + 1 ≤ duration s.cfg (decodeWord w) →
    n + 1 = max 2 s.backlog → s.runsFor (n + duration s.cfg (decodeWord w) + 1) →
    (∃ u, s.after n = .next u ∧ u.started = [w]) ∧
    (∃ j u, j + 1 ≤ n + duration s.cfg (decodeWord w) ∧ s.after j = .next u ∧ u.accepted = [v]) ∧
    (∃ u, s.after (n + duration s.cfg (decodeWord w)) = .next u ∧ u.remaining = 1 ∧ u.started = [v])

/-- R95: over any run without RST, the words waiting at the start and the words accepted are, in that order, the words
that enter ACT and the word still waiting at the end. -/
def Obligations.CommandsStartOnceInAcceptanceOrder : Prop :=
  ∀ (s : State) (k : Nat), s.live = true → RegistersInv s → s.runsFor k →
    ∃ u, s.after k = .next u ∧
      s.pend.toList ++ s.collect State.accepted k = s.collect State.started k ++ u.pend.toList

/-- R174: while a command is active, what the host presents changes neither the latches nor ACT. -/
def Obligations.HostCannotDisturbTheActiveCommand : Prop :=
  ∀ (s : State) (other : List (Option Access)) (k : Nat), s.live = true → RegistersInv s →
    k < s.remaining → s.runsFor k →
    ∃ u v, s.after k = .next u ∧ ({ s with host := other } : State).after k = .next v ∧
      u.out = v.out ∧ u.act = v.act ∧ u.active = true

/-- R89: an idle LPE to which no command is written keeps OUT, ACT and PEND. -/
def Obligations.IdleLpeHoldsEveryLatch : Prop :=
  ∀ (s : State) (k : Nat), s.live = true → s.idle = true → (∀ x ∈ s.host, cmdWord x = none) → s.runsFor k →
    ∃ u, s.after k = .next u ∧ u.out = s.out ∧ u.act = none ∧ u.pend = none

/-- R179: STATUS reads `[1:0] = 0` exactly when nothing is active or queued; and once no command is written any more, it
reads so from the cycle after the last one's last cycle on, and not before. -/
def Obligations.StatusTellsWhenTheLastCommandHasEnded : Prop :=
  ∀ s : State, s.live = true → RegistersInv s →
    ((s.readReg 0x04).toNat % 4 = 0 ↔ s.act = none ∧ s.pend = none) ∧
    (s.pend = none → (∀ x ∈ s.host, cmdWord x = none) → ∀ k, s.runsFor k →
      ∃ u, s.after k = .next u ∧ ((u.readReg 0x04).toNat % 4 = 0 ↔ s.remaining ≤ k))

/-- R99, R176: a program of legal commands that the host writes back to back, the first already in PEND, plays the
segments of all its commands with no gap, and then the LPE is idle. -/
def Obligations.BackToBackProgramPlaysWithoutGaps : Prop :=
  ∀ (s : State) (first : Instr) (others : List Instr) (total : Nat), Starting s first →
    s.host = others.map (fun i => cmdSlot s.cfg (encode i)) → (∀ i ∈ others, i.legal = true) →
    total = totalCycles (programSegments s.cfg (first :: others)) → s.runsFor (1 + total) →
    (∀ t, t < total → ∃ u, s.after (1 + t) = .next u ∧ u.active = true ∧
      ∀ q, q < s.cfg.nPins → u.level q = levelAt (programSegments s.cfg (first :: others)) t q (s.level q)) ∧
    (∃ u, s.after (1 + total) = .next u ∧ u.idle = true)

/-! Whole-machine rules. -/

/-- R27, R24, R25: the invariant of a run is kept by every step from every state that meets it. -/
def Obligations.StepKeepsTheRunInvariant : Prop :=
  ∀ s t : State, Inv s → step s = .next t → Inv t

/-- The reset state meets the run invariant, for the test profile and for all well-formed parameters. -/
def Obligations.ResetMeetsTheRunInvariant : Prop :=
  Inv State.reset ∧ ∀ c : Config, c.wellFormed = true → Inv (State.resetWith c)

/-- A state that meets the run invariant never stops, but for a host access before the first RST. -/
def Obligations.RunsStopOnlyAtAnAccessBeforeTheFirstRst : Prop :=
  ∀ s : State, Inv s →
    (∃ t, step s = .next t) ∨ (s.wasReset = false ∧ s.access.isSome = true ∧ step s = .fault .unreset)

/-- R33: no step and no command changes the parameters. -/
def Obligations.ParametersNeverChange : Prop :=
  (∀ s t : State, step s = .next t → t.cfg = s.cfg) ∧
  (∀ (i : Instr) (s t : State), exec i s = .next t → t.cfg = s.cfg)

/-- R24: a latch changes only at RST, when a command that names it enters ACT, or when the active TX names it; and what
the host presents in a cycle changes no latch at that cycle's edge. That the latches also stand before the first RST
(R163; log 11) and as power is lost (R152; log 13) is the model's choice. -/
def Obligations.OnlyTheSequencerWritesLatches : Prop :=
  (∀ (s t : State) (q : Nat), step s = .next t → t.level q ≠ s.level q →
    (∃ oe, s.slot = .edge true oe) ∨
    (q < s.cfg.nPins ∧ ∃ w ∈ s.started, ∃ p, (decodeWord w).drivenPin = some p ∧ p.toNat = q) ∨
    (q < s.cfg.nPins ∧ ∃ p color bit phase cnt, s.act = some ⟨.tx p color bit phase, cnt⟩ ∧ p.toNat = q)) ∧
  (∀ (s t t' : State) (other : List (Option Access)), step s = .next t →
    step { s with host := other } = .next t' → t'.out = t.out)

/-- R141, R170 to R172: each recorded fault appears at exactly the edge where its condition holds, and no step clears
it. PinOutOfRange's edge is the spec's; the edges at which PinNotOutput (log 9) and ResetTooShort (log 10) are recorded,
and that neither RST nor a loss of power clears a record (log 12), are the model's choices. -/
def Obligations.FaultsAreRecordedWhenTheirConditionHolds : Prop :=
  ∀ s t : State, step s = .next t →
    (t.faults.pinOutOfRange = true ↔ s.faults.pinOutOfRange = true ∨
      ∃ w ∈ s.started, ∃ p, (decodeWord w).drivenPin = some p ∧ s.cfg.nPins ≤ p.toNat) ∧
    (t.faults.resetTooShort = true ↔ s.faults.resetTooShort = true ∨
      ∃ w ∈ s.started, ∃ p, decodeWord w = .breset p ∧ s.cfg.tReset < s.cfg.tResMin) ∧
    (t.faults.pinNotOutput = true ↔ s.faults.pinNotOutput = true ∨
      s.wasReset = true ∧ ∃ rst oe p cnt, s.slot = .edge rst oe ∧ p.toNat < s.cfg.nPins ∧ oe.getLsbD p.toNat = false ∧
        ((∃ color bit phase, s.act = some ⟨.tx p color bit phase, cnt⟩) ∨ s.act = some ⟨.breset p, cnt⟩))

/-! Pulses and the assembler (42_gpio_pulse.md R122, 30_encoding.md R71, R72). -/

/-- R72, R122: `PULSE` expands to commands that last exactly its cycles and hold its pin, and only it, at its level. -/
def Obligations.PulseHoldsItsPinForItsCycles : Prop :=
  ∀ (c : Config) (pin lvl cycles : Nat), pin < 32 → lvl < 2 → 1 ≤ cycles → cycles ≤ 2 ^ 24 →
    ∃ is, (AsmLine.pulse pin lvl cycles).commands = .ok is ∧
      totalCycles (programSegments c is) = cycles ∧
      ∀ t q before, t < cycles →
        levelAt (programSegments c is) t q before = if pin = q then decide (lvl = 1) else before

/-- R122: SETLVL and DELAY primitives, with a DELAY left out where a phase is one cycle, play what a bit period of a TX
plays. -/
def Obligations.PrimitivesReproduceATxBit : Prop :=
  ∀ (c : Config) (pin : Pin) (color : Color) (i : Nat) (is : List Instr), c.wellFormed = true →
    is = [Instr.setlvl pin true] ++
      (if color.getLsbD i = true ∨ 2 ≤ c.tShort then [Instr.delay (hdur c (color.getLsbD i) - 1)] else []) ++
      [Instr.setlvl pin false] ++
      (if color.getLsbD i = false ∨ 2 ≤ c.tShort then [Instr.delay (ldur c (color.getLsbD i) - 1)] else []) →
    totalCycles (programSegments c is) = c.tBit ∧ totalCycles (bitSegments c pin color i) = c.tBit ∧
    ∀ t q before, t < c.tBit →
      levelAt (programSegments c is) t q before = levelAt (bitSegments c pin color i) t q before

/-- R71: each line of the four commands assembles exactly when its operands are in range, to the word of the rule. -/
def Obligations.AssemblerEmitsTheWordOrRejects : Prop :=
  (∀ pin color, (pin < 32 ∧ color ≤ 0xFFFFFF →
      ∃ i, (AsmLine.tx pin color).commands = .ok [i] ∧ (encode i).toNat = 0x20000000 + pin * 2 ^ 24 + color) ∧
    (¬ (pin < 32 ∧ color ≤ 0xFFFFFF) → ∃ e, (AsmLine.tx pin color).commands = .error e)) ∧
  (∀ pin, (pin < 32 →
      ∃ i, (AsmLine.breset pin).commands = .ok [i] ∧ (encode i).toNat = 0x40000000 + pin * 2 ^ 24) ∧
    (¬ pin < 32 → ∃ e, (AsmLine.breset pin).commands = .error e)) ∧
  (∀ pin lvl, (pin < 32 ∧ lvl < 2 →
      ∃ i, (AsmLine.setlvl pin lvl).commands = .ok [i] ∧ (encode i).toNat = 0x60000000 + pin * 2 ^ 24 + lvl) ∧
    (¬ (pin < 32 ∧ lvl < 2) → ∃ e, (AsmLine.setlvl pin lvl).commands = .error e)) ∧
  (∀ n, (n ≤ 0xFFFFFF →
      ∃ i, (AsmLine.delay n).commands = .ok [i] ∧ (encode i).toNat = 0x80000000 + n) ∧
    (¬ n ≤ 0xFFFFFF → ∃ e, (AsmLine.delay n).commands = .error e))

/-- R72: what the pseudo-commands expand to, in order, and when they are errors; and a program assembles line after line
(R71), or not at all. That a FRAME of no colour is a lone BRESET, and that a PULSE of no cycles is an error, is the model's
choice (log 22). -/
def Obligations.PseudoCommandsExpandInOrder : Prop :=
  (∀ pin, pin < 32 →
    (AsmLine.high pin).commands = .ok [.setlvl (BitVec.ofNat 5 pin) true] ∧
    (AsmLine.low pin).commands = .ok [.setlvl (BitVec.ofNat 5 pin) false]) ∧
  (∀ pin, ¬ pin < 32 →
    (∃ e, (AsmLine.high pin).commands = .error e) ∧ ∃ e, (AsmLine.low pin).commands = .error e) ∧
  AsmLine.nop.commands = .ok [.delay 1] ∧
  (∀ pin lvl c, pin < 32 ∧ lvl < 2 ∧ 1 ≤ c ∧ c ≤ 2 ^ 24 →
    (AsmLine.pulse pin lvl c).commands = .ok ([.setlvl (BitVec.ofNat 5 pin) (decide (lvl = 1))] ++
      if 2 ≤ c then [.delay (BitVec.ofNat 24 (c - 1))] else [])) ∧
  (∀ pin lvl c, ¬ (pin < 32 ∧ lvl < 2 ∧ 1 ≤ c ∧ c ≤ 2 ^ 24) → ∃ e, (AsmLine.pulse pin lvl c).commands = .error e) ∧
  (∀ pin colors, pin < 32 ∧ (∀ c ∈ colors, c ≤ 0xFFFFFF) →
    (AsmLine.frame pin colors).commands = .ok (colors.map (fun c => .tx (BitVec.ofNat 5 pin) (BitVec.ofNat 24 c)) ++
      [.breset (BitVec.ofNat 5 pin)])) ∧
  (∀ pin colors, ¬ (pin < 32 ∧ ∀ c ∈ colors, c ≤ 0xFFFFFF) → ∃ e, (AsmLine.frame pin colors).commands = .error e) ∧
  (∀ (lines : List AsmLine) (expand : AsmLine → List Instr), (∀ line ∈ lines, line.commands = .ok (expand line)) →
    assemble lines = .ok (lines.flatMap expand)) ∧
  (∀ lines : List AsmLine, (∃ line ∈ lines, ∃ e, line.commands = .error e) → ∃ e, assemble lines = .error e)
end

