-- ==== Sys2Proof/Laws/Asm.lean ====
section
/-!
SUPPORT. The operands of an assembler line in and out of range, and the lists an assembler walks (30_encoding.md R71, R72).
-/
namespace Sys2Proof.Machine
namespace AsmLine

theorem pinOf_ok {n : Nat} (h : n < 32) : pinOf n = .ok (BitVec.ofNat 5 n) := if_pos h
theorem pinOf_error {n : Nat} (h : ¬ n < 32) : pinOf n = .error (.pinRange n) := if_neg h
theorem lvlOf_ok {n : Nat} (h : n < 2) : lvlOf n = .ok (decide (n = 1)) := if_pos h
theorem lvlOf_error {n : Nat} (h : ¬ n < 2) : lvlOf n = .error (.lvlRange n) := if_neg h
theorem countOf_ok {n : Nat} (h : n ≤ 0xFFFFFF) : countOf n = .ok (BitVec.ofNat 24 n) := if_pos (by omega)
theorem countOf_error {n : Nat} (h : ¬ n ≤ 0xFFFFFF) : countOf n = .error (.countRange n) := if_neg (by omega)
theorem colorOf_ok {n : Nat} (h : n ≤ 0xFFFFFF) : colorOf n = .ok (BitVec.ofNat 24 n) := if_pos (by omega)
theorem colorOf_error {n : Nat} (h : ¬ n ≤ 0xFFFFFF) : colorOf n = .error (.colorRange n) := if_neg (by omega)

/-- A FRAME answers commands only if all its colours are in range, and then one TX each, in order, and a BRESET. -/
theorem frameCommands_cases (pin : Pin) (colors : List Nat) :
    ((∀ c ∈ colors, c ≤ 0xFFFFFF) ∧
      frameCommands pin colors = .ok (colors.map (fun c => .tx pin (BitVec.ofNat 24 c)) ++ [.breset pin])) ∨
    ((∃ c ∈ colors, ¬ c ≤ 0xFFFFFF) ∧ ∃ e, frameCommands pin colors = .error e) := by
  induction colors with
  | nil => exact .inl ⟨by simp, rfl⟩
  | cons c rest ih =>
    by_cases hc : c ≤ 0xFFFFFF
    · obtain ⟨hr, ht⟩ | ⟨⟨d, hd, hdr⟩, e, he⟩ := ih
      · refine .inl ⟨by simpa using ⟨hc, hr⟩, ?_⟩
        simp only [frameCommands, colorOf_ok hc, ht]; rfl
      · refine .inr ⟨⟨d, by simp [hd], hdr⟩, e, ?_⟩
        simp only [frameCommands, colorOf_ok hc, he]; rfl
    · refine .inr ⟨⟨c, by simp, hc⟩, .colorRange c, ?_⟩
      simp only [frameCommands, colorOf_error hc]; rfl

end AsmLine

/-- A program whose first line is an error is an error. -/
theorem assemble_cons_error {line : AsmLine} {e : AsmError} (h : line.commands = .error e) (rest : List AsmLine) :
    assemble (line :: rest) = .error e := by
  simp only [assemble, h]; rfl

/-- A program is its first line's commands and then the rest's, or the rest's error. -/
theorem assemble_cons_ok {line : AsmLine} {is : List Instr} (h : line.commands = .ok is) (rest : List AsmLine) :
    assemble (line :: rest) = (assemble rest).map (is ++ ·) := by
  simp only [assemble, h]
  cases assemble rest <;> rfl

end Sys2Proof.Machine
end

