-- ==== Sys2Proof/Laws/Decode.lean ====
section
/-!
SUPPORT. The fields of a command word as arithmetic on its number, for the decoder and the encoder.
-/
namespace Sys2Proof

theorem opField_toNat (w : Word) : (opField w).toNat = w.toNat / 2 ^ 29 := by
  have := w.isLt
  simp [opField, BitVec.extractLsb'_toNat, Nat.shiftRight_eq_div_pow]
  omega

theorem pinField_toNat (w : Word) : (pinField w).toNat = w.toNat / 2 ^ 24 % 32 := by
  simp [pinField, BitVec.extractLsb'_toNat, Nat.shiftRight_eq_div_pow]

theorem payloadField_toNat (w : Word) : (payloadField w).toNat = w.toNat % 2 ^ 24 := by
  simp [payloadField, BitVec.extractLsb'_toNat]

theorem freeField_toNat (w : Word) : (freeField w).toNat = w.toNat % 2 ^ 29 := by
  simp [freeField, BitVec.extractLsb'_toNat]

theorem lvlField_eq (w : Word) : lvlField w = decide (w.toNat % 2 = 1) := by
  simp [lvlField, BitVec.getLsbD, Nat.testBit_zero]

theorem laneOf_toNat (w : Word) (k : Nat) : (laneOf w k).toNat = w.toNat / 2 ^ (8 * k) % 256 := by
  simp [laneOf, BitVec.extractLsb'_toNat, Nat.shiftRight_eq_div_pow]

/-- Joining a high part and a low part of `m` bits. -/
theorem append_toNat {n m : Nat} (a : BitVec n) (b : BitVec m) : (a ++ b).toNat = a.toNat * 2 ^ m + b.toNat := by
  rw [BitVec.toNat_append, Nat.shiftLeft_eq, Nat.mul_comm, ← Nat.two_pow_add_eq_or_of_lt b.isLt]

theorem wordOfLanes_toNat (b0 b1 b2 b3 : Byte) :
    (wordOfLanes b0 b1 b2 b3).toNat = b3.toNat * 2 ^ 24 + b2.toNat * 2 ^ 16 + b1.toNat * 2 ^ 8 + b0.toNat := by
  simp only [wordOfLanes, append_toNat]
  omega

theorem packWord_toNat (op : BitVec 3) (pin : Pin) (payload : BitVec 24) :
    (packWord op pin payload).toNat = op.toNat * 2 ^ 29 + pin.toNat * 2 ^ 24 + payload.toNat := by
  simp only [packWord, append_toNat]
  omega

end Sys2Proof
end

