-- ==== Sys2Proof/Laws/State.lean ====
section
/-!
SUPPORT. What each register operation does to each field, so that no later proof unfolds a record update.
-/
namespace Sys2Proof.Machine
namespace State

/-! Writing one latch. -/

theorem getLsbD_withBit (v : BitVec 32) (p q : Nat) (b : Bool) (hp : p < 32) :
    (withBit v p b).getLsbD q = if p = q then b else v.getLsbD q := by
  by_cases hq : q < 32
  · by_cases h : p = q
    · subst h; cases b <;> simp [withBit, hp]
    · cases b
      · by_cases hlt : q < p
        · simp [withBit, h, hq, hlt]
        · have : q - p ≠ 0 := by omega
          simp [withBit, h, hq, hlt, this]
      · by_cases hlt : q < p
        · simp [withBit, h, hlt]
        · have : q - p ≠ 0 := by omega
          simp [withBit, h, hlt, this]
  · have h1 : (withBit v p b).getLsbD q = false := BitVec.getLsbD_of_ge _ _ (by omega)
    have h2 : v.getLsbD q = false := BitVec.getLsbD_of_ge _ _ (by omega)
    rw [h1, h2, if_neg (by omega)]

/-- R24, R85: a latch write changes latch `pin` alone, and none when the pin names no latch. -/
theorem level_setLevel (s : State) (pin : Pin) (v : Bool) (q : Nat) :
    (s.setLevel pin v).level q =
      if pin.toNat = q ∧ pin.toNat < s.cfg.nPins then v else s.level q := by
  unfold setLevel pinExists
  have hp : pin.toNat < 32 := pin.isLt
  split <;> rename_i h
  · simp only [level, getLsbD_withBit _ _ _ _ hp]
    simp only [decide_eq_true_eq] at h
    simp [h]
  · simp only [decide_eq_true_eq] at h
    simp [h]

@[simp] theorem setLevel_cfg (s : State) (p : Pin) (v : Bool) : (s.setLevel p v).cfg = s.cfg := by
  unfold setLevel; split <;> rfl
@[simp] theorem setLevel_pend (s : State) (p : Pin) (v : Bool) : (s.setLevel p v).pend = s.pend := by
  unfold setLevel; split <;> rfl
@[simp] theorem setLevel_act (s : State) (p : Pin) (v : Bool) : (s.setLevel p v).act = s.act := by
  unfold setLevel; split <;> rfl
@[simp] theorem setLevel_ill (s : State) (p : Pin) (v : Bool) : (s.setLevel p v).ill = s.ill := by
  unfold setLevel; split <;> rfl
@[simp] theorem setLevel_wasReset (s : State) (p : Pin) (v : Bool) : (s.setLevel p v).wasReset = s.wasReset := by
  unfold setLevel; split <;> rfl
@[simp] theorem setLevel_faults (s : State) (p : Pin) (v : Bool) : (s.setLevel p v).faults = s.faults := by
  unfold setLevel; split <;> rfl
@[simp] theorem setLevel_host (s : State) (p : Pin) (v : Bool) : (s.setLevel p v).host = s.host := by
  unfold setLevel; split <;> rfl
@[simp] theorem setLevel_platform (s : State) (p : Pin) (v : Bool) : (s.setLevel p v).platform = s.platform := by
  unfold setLevel; split <;> rfl

/-! Loading ACT. -/

@[simp] theorem load_cfg (s : State) (k : ActKind) (n : Count) : (s.load k n).cfg = s.cfg := rfl
@[simp] theorem load_out (s : State) (k : ActKind) (n : Count) : (s.load k n).out = s.out := rfl
@[simp] theorem load_level (s : State) (k : ActKind) (n : Count) (q : Nat) : (s.load k n).level q = s.level q := rfl
@[simp] theorem load_pend (s : State) (k : ActKind) (n : Count) : (s.load k n).pend = s.pend := rfl
@[simp] theorem load_act (s : State) (k : ActKind) (n : Count) : (s.load k n).act = some ⟨k, n⟩ := rfl
@[simp] theorem load_ill (s : State) (k : ActKind) (n : Count) : (s.load k n).ill = s.ill := rfl
@[simp] theorem load_wasReset (s : State) (k : ActKind) (n : Count) : (s.load k n).wasReset = s.wasReset := rfl
@[simp] theorem load_faults (s : State) (k : ActKind) (n : Count) : (s.load k n).faults = s.faults := rfl
@[simp] theorem load_host (s : State) (k : ActKind) (n : Count) : (s.load k n).host = s.host := rfl
@[simp] theorem load_platform (s : State) (k : ActKind) (n : Count) : (s.load k n).platform = s.platform := rfl

/-! Recording the faults of R141. -/

@[simp] theorem notePin_cfg (s : State) (p : Pin) : (s.notePin p).cfg = s.cfg := by unfold notePin; split <;> rfl
@[simp] theorem notePin_out (s : State) (p : Pin) : (s.notePin p).out = s.out := by unfold notePin; split <;> rfl
@[simp] theorem notePin_level (s : State) (p : Pin) (q : Nat) : (s.notePin p).level q = s.level q := by
  unfold notePin; split <;> rfl
@[simp] theorem notePin_pend (s : State) (p : Pin) : (s.notePin p).pend = s.pend := by unfold notePin; split <;> rfl
@[simp] theorem notePin_act (s : State) (p : Pin) : (s.notePin p).act = s.act := by unfold notePin; split <;> rfl
@[simp] theorem notePin_ill (s : State) (p : Pin) : (s.notePin p).ill = s.ill := by unfold notePin; split <;> rfl
@[simp] theorem notePin_wasReset (s : State) (p : Pin) : (s.notePin p).wasReset = s.wasReset := by
  unfold notePin; split <;> rfl
@[simp] theorem notePin_host (s : State) (p : Pin) : (s.notePin p).host = s.host := by unfold notePin; split <;> rfl
@[simp] theorem notePin_platform (s : State) (p : Pin) : (s.notePin p).platform = s.platform := by
  unfold notePin; split <;> rfl
theorem notePin_faults (s : State) (p : Pin) : (s.notePin p).faults =
    { s.faults with pinOutOfRange := s.faults.pinOutOfRange || !pinExists s.cfg p } := by
  unfold notePin; split <;> rename_i h <;> simp [h]

@[simp] theorem noteReset_cfg (s : State) : s.noteReset.cfg = s.cfg := by unfold noteReset; split <;> rfl
@[simp] theorem noteReset_out (s : State) : s.noteReset.out = s.out := by unfold noteReset; split <;> rfl
@[simp] theorem noteReset_level (s : State) (q : Nat) : s.noteReset.level q = s.level q := by
  unfold noteReset; split <;> rfl
@[simp] theorem noteReset_pend (s : State) : s.noteReset.pend = s.pend := by unfold noteReset; split <;> rfl
@[simp] theorem noteReset_act (s : State) : s.noteReset.act = s.act := by unfold noteReset; split <;> rfl
@[simp] theorem noteReset_ill (s : State) : s.noteReset.ill = s.ill := by unfold noteReset; split <;> rfl
@[simp] theorem noteReset_wasReset (s : State) : s.noteReset.wasReset = s.wasReset := by
  unfold noteReset; split <;> rfl
@[simp] theorem noteReset_host (s : State) : s.noteReset.host = s.host := by unfold noteReset; split <;> rfl
@[simp] theorem noteReset_platform (s : State) : s.noteReset.platform = s.platform := by
  unfold noteReset; split <;> rfl
theorem noteReset_faults (s : State) : s.noteReset.faults =
    { s.faults with resetTooShort := s.faults.resetTooShort || !s.cfg.resetLongEnough } := by
  unfold noteReset; split <;> rename_i h <;> simp [h]

@[simp] theorem notePad_cfg (s : State) (b : Bool) : (s.notePad b).cfg = s.cfg := by unfold notePad; split <;> rfl
@[simp] theorem notePad_out (s : State) (b : Bool) : (s.notePad b).out = s.out := by unfold notePad; split <;> rfl
@[simp] theorem notePad_level (s : State) (b : Bool) (q : Nat) : (s.notePad b).level q = s.level q := by
  unfold notePad; split <;> rfl
@[simp] theorem notePad_pend (s : State) (b : Bool) : (s.notePad b).pend = s.pend := by unfold notePad; split <;> rfl
@[simp] theorem notePad_act (s : State) (b : Bool) : (s.notePad b).act = s.act := by unfold notePad; split <;> rfl
@[simp] theorem notePad_ill (s : State) (b : Bool) : (s.notePad b).ill = s.ill := by unfold notePad; split <;> rfl
@[simp] theorem notePad_wasReset (s : State) (b : Bool) : (s.notePad b).wasReset = s.wasReset := by
  unfold notePad; split <;> rfl
@[simp] theorem notePad_host (s : State) (b : Bool) : (s.notePad b).host = s.host := by unfold notePad; split <;> rfl
@[simp] theorem notePad_platform (s : State) (b : Bool) : (s.notePad b).platform = s.platform := by
  unfold notePad; split <;> rfl
theorem notePad_faults (s : State) (b : Bool) : (s.notePad b).faults =
    { s.faults with pinNotOutput := s.faults.pinNotOutput || b } := by
  unfold notePad; split <;> rename_i h <;> simp [h]

/-! Starting a command that drives a pin: the three operations at once. -/

@[simp] theorem startDriving_cfg (s : State) (p : Pin) (v : Bool) (k : ActKind) (n : Count) :
    (s.startDriving p v k n).cfg = s.cfg := by simp [startDriving]
@[simp] theorem startDriving_pend (s : State) (p : Pin) (v : Bool) (k : ActKind) (n : Count) :
    (s.startDriving p v k n).pend = s.pend := by simp [startDriving]
@[simp] theorem startDriving_act (s : State) (p : Pin) (v : Bool) (k : ActKind) (n : Count) :
    (s.startDriving p v k n).act = some ⟨k, n⟩ := by simp [startDriving]
@[simp] theorem startDriving_ill (s : State) (p : Pin) (v : Bool) (k : ActKind) (n : Count) :
    (s.startDriving p v k n).ill = s.ill := by simp [startDriving]
@[simp] theorem startDriving_wasReset (s : State) (p : Pin) (v : Bool) (k : ActKind) (n : Count) :
    (s.startDriving p v k n).wasReset = s.wasReset := by simp [startDriving]
@[simp] theorem startDriving_host (s : State) (p : Pin) (v : Bool) (k : ActKind) (n : Count) :
    (s.startDriving p v k n).host = s.host := by simp [startDriving]
@[simp] theorem startDriving_platform (s : State) (p : Pin) (v : Bool) (k : ActKind) (n : Count) :
    (s.startDriving p v k n).platform = s.platform := by simp [startDriving]
theorem startDriving_level (s : State) (p : Pin) (v : Bool) (k : ActKind) (n : Count) (q : Nat) :
    (s.startDriving p v k n).level q = if p.toNat = q ∧ p.toNat < s.cfg.nPins then v else s.level q := by
  unfold startDriving; rw [notePin_level, level_setLevel]; rfl
theorem startDriving_faults (s : State) (p : Pin) (v : Bool) (k : ActKind) (n : Count) :
    (s.startDriving p v k n).faults =
      { s.faults with pinOutOfRange := s.faults.pinOutOfRange || !pinExists s.cfg p } := by
  simp [startDriving, notePin_faults]

/-! The single-field operations: what they leave alone is `rfl`. -/

@[simp] theorem retire_act (s : State) : s.retire.act = none := rfl
@[simp] theorem retire_out (s : State) : s.retire.out = s.out := rfl
@[simp] theorem retire_level (s : State) (q : Nat) : s.retire.level q = s.level q := rfl
@[simp] theorem retire_pend (s : State) : s.retire.pend = s.pend := rfl
@[simp] theorem retire_ill (s : State) : s.retire.ill = s.ill := rfl
@[simp] theorem retire_cfg (s : State) : s.retire.cfg = s.cfg := rfl
@[simp] theorem retire_wasReset (s : State) : s.retire.wasReset = s.wasReset := rfl
@[simp] theorem retire_faults (s : State) : s.retire.faults = s.faults := rfl
@[simp] theorem retire_host (s : State) : s.retire.host = s.host := rfl
@[simp] theorem retire_platform (s : State) : s.retire.platform = s.platform := rfl

@[simp] theorem takePend_act (s : State) : s.takePend.act = s.act := rfl
@[simp] theorem takePend_out (s : State) : s.takePend.out = s.out := rfl
@[simp] theorem takePend_level (s : State) (q : Nat) : s.takePend.level q = s.level q := rfl
@[simp] theorem takePend_pend (s : State) : s.takePend.pend = none := rfl
@[simp] theorem takePend_ill (s : State) : s.takePend.ill = s.ill := rfl
@[simp] theorem takePend_cfg (s : State) : s.takePend.cfg = s.cfg := rfl
@[simp] theorem takePend_wasReset (s : State) : s.takePend.wasReset = s.wasReset := rfl
@[simp] theorem takePend_faults (s : State) : s.takePend.faults = s.faults := rfl
@[simp] theorem takePend_host (s : State) : s.takePend.host = s.host := rfl
@[simp] theorem takePend_platform (s : State) : s.takePend.platform = s.platform := rfl

@[simp] theorem fillPend_act (s : State) (w : Word) : (s.fillPend w).act = s.act := rfl
@[simp] theorem fillPend_out (s : State) (w : Word) : (s.fillPend w).out = s.out := rfl
@[simp] theorem fillPend_level (s : State) (w : Word) (q : Nat) : (s.fillPend w).level q = s.level q := rfl
@[simp] theorem fillPend_pend (s : State) (w : Word) : (s.fillPend w).pend = some w := rfl
@[simp] theorem fillPend_ill (s : State) (w : Word) : (s.fillPend w).ill = s.ill := rfl
@[simp] theorem fillPend_cfg (s : State) (w : Word) : (s.fillPend w).cfg = s.cfg := rfl
@[simp] theorem fillPend_wasReset (s : State) (w : Word) : (s.fillPend w).wasReset = s.wasReset := rfl
@[simp] theorem fillPend_faults (s : State) (w : Word) : (s.fillPend w).faults = s.faults := rfl
@[simp] theorem fillPend_host (s : State) (w : Word) : (s.fillPend w).host = s.host := rfl
@[simp] theorem fillPend_platform (s : State) (w : Word) : (s.fillPend w).platform = s.platform := rfl

@[simp] theorem setIll_ill (s : State) : s.setIll.ill = true := rfl
@[simp] theorem setIll_act (s : State) : s.setIll.act = s.act := rfl
@[simp] theorem setIll_out (s : State) : s.setIll.out = s.out := rfl
@[simp] theorem setIll_level (s : State) (q : Nat) : s.setIll.level q = s.level q := rfl
@[simp] theorem setIll_pend (s : State) : s.setIll.pend = s.pend := rfl
@[simp] theorem setIll_cfg (s : State) : s.setIll.cfg = s.cfg := rfl
@[simp] theorem setIll_wasReset (s : State) : s.setIll.wasReset = s.wasReset := rfl
@[simp] theorem setIll_faults (s : State) : s.setIll.faults = s.faults := rfl
@[simp] theorem setIll_host (s : State) : s.setIll.host = s.host := rfl
@[simp] theorem setIll_platform (s : State) : s.setIll.platform = s.platform := rfl

@[simp] theorem clearIll_ill (s : State) : s.clearIll.ill = false := rfl
@[simp] theorem clearIll_act (s : State) : s.clearIll.act = s.act := rfl
@[simp] theorem clearIll_out (s : State) : s.clearIll.out = s.out := rfl
@[simp] theorem clearIll_level (s : State) (q : Nat) : s.clearIll.level q = s.level q := rfl
@[simp] theorem clearIll_pend (s : State) : s.clearIll.pend = s.pend := rfl
@[simp] theorem clearIll_cfg (s : State) : s.clearIll.cfg = s.cfg := rfl
@[simp] theorem clearIll_wasReset (s : State) : s.clearIll.wasReset = s.wasReset := rfl
@[simp] theorem clearIll_faults (s : State) : s.clearIll.faults = s.faults := rfl
@[simp] theorem clearIll_host (s : State) : s.clearIll.host = s.host := rfl
@[simp] theorem clearIll_platform (s : State) : s.clearIll.platform = s.platform := rfl

@[simp] theorem resetRegisters_cfg (s : State) : s.resetRegisters.cfg = s.cfg := rfl
@[simp] theorem resetRegisters_out (s : State) : s.resetRegisters.out = 0 := rfl
@[simp] theorem resetRegisters_level (s : State) (q : Nat) : s.resetRegisters.level q = false := by
  simp [level]
@[simp] theorem resetRegisters_pend (s : State) : s.resetRegisters.pend = none := rfl
@[simp] theorem resetRegisters_act (s : State) : s.resetRegisters.act = none := rfl
@[simp] theorem resetRegisters_ill (s : State) : s.resetRegisters.ill = false := rfl
@[simp] theorem resetRegisters_wasReset (s : State) : s.resetRegisters.wasReset = true := rfl
@[simp] theorem resetRegisters_faults (s : State) : s.resetRegisters.faults = s.faults := rfl

/-! The end of a cycle: it touches the inputs and the record of PinNotOutput, no register. -/

@[simp] theorem endCycle_cfg (s : State) (r : Bool) (oe : BitVec 32) (t : State) :
    (s.endCycle r oe t).cfg = t.cfg := by simp [endCycle]
@[simp] theorem endCycle_out (s : State) (r : Bool) (oe : BitVec 32) (t : State) :
    (s.endCycle r oe t).out = t.out := by simp [endCycle]
@[simp] theorem endCycle_level (s : State) (r : Bool) (oe : BitVec 32) (t : State) (q : Nat) :
    (s.endCycle r oe t).level q = t.level q := by simp [level]
@[simp] theorem endCycle_pend (s : State) (r : Bool) (oe : BitVec 32) (t : State) :
    (s.endCycle r oe t).pend = t.pend := by simp [endCycle]
@[simp] theorem endCycle_act (s : State) (r : Bool) (oe : BitVec 32) (t : State) :
    (s.endCycle r oe t).act = t.act := by simp [endCycle]
@[simp] theorem endCycle_ill (s : State) (r : Bool) (oe : BitVec 32) (t : State) :
    (s.endCycle r oe t).ill = t.ill := by simp [endCycle]
@[simp] theorem endCycle_wasReset (s : State) (r : Bool) (oe : BitVec 32) (t : State) :
    (s.endCycle r oe t).wasReset = t.wasReset := by simp [endCycle]
@[simp] theorem endCycle_host (s : State) (r : Bool) (oe : BitVec 32) (t : State) :
    (s.endCycle r oe t).host = s.hostAfter r := by simp [endCycle]
@[simp] theorem endCycle_platform (s : State) (r : Bool) (oe : BitVec 32) (t : State) :
    (s.endCycle r oe t).platform = s.platform.tail := by simp [endCycle]
theorem endCycle_faults (s : State) (r : Bool) (oe : BitVec 32) (t : State) :
    (s.endCycle r oe t).faults =
      { t.faults with pinNotOutput := t.faults.pinNotOutput || (s.wasReset && s.padUndriven oe) } := by
  simp [endCycle, notePad_faults]

end State
end Sys2Proof.Machine
end

