-- ==== Sys2Proof/Laws/Exec.lean ====
section
/-!
SUPPORT. `exec` and step 1 of an edge as total functions on states, and what they leave alone.
-/
namespace Sys2Proof.Machine

/-- The state that `exec` answers: every command runs in every state. -/
def effect (i : Instr) (s : State) : State :=
  match i with
  | .tx pin color => s.startDriving pin true (.tx pin color 23 .high) (hdur s.cfg (colorBit color 23))
  | .breset pin => (s.startDriving pin false (.breset pin) (toCount s.cfg.tReset)).noteReset
  | .setlvl pin lvl => s.startDriving pin lvl (.setlvl pin) 1
  | .delay n => s.load .delay (delayCycles n)
  | .reserved000 _ => s.setIll
  | .reserved101 _ => s.setIll
  | .reserved110 _ => s.setIll
  | .reserved111 _ => s.setIll

theorem exec_eq_effect (i : Instr) (s : State) : exec i s = .next (effect i s) := by
  cases i <;> rfl

@[simp] theorem effect_cfg (i : Instr) (s : State) : (effect i s).cfg = s.cfg := by cases i <;> simp [effect]
@[simp] theorem effect_pend (i : Instr) (s : State) : (effect i s).pend = s.pend := by cases i <;> simp [effect]
@[simp] theorem effect_wasReset (i : Instr) (s : State) : (effect i s).wasReset = s.wasReset := by
  cases i <;> simp [effect]
@[simp] theorem effect_host (i : Instr) (s : State) : (effect i s).host = s.host := by cases i <;> simp [effect]
@[simp] theorem effect_platform (i : Instr) (s : State) : (effect i s).platform = s.platform := by
  cases i <;> simp [effect]

/-- R93, R22: the reserved words set ILL, the commands leave it. -/
theorem effect_ill (i : Instr) (s : State) : (effect i s).ill = (s.ill || !i.legal) := by
  cases i <;> simp [effect, Instr.legal]

/-- R93: a reserved word changes nothing but ILL. -/
theorem effect_reserved {i : Instr} (h : i.legal = false) (s : State) : effect i s = s.setIll := by
  cases i <;> simp_all [effect, Instr.legal]

/-- R85: the level a command gives its pin as it enters ACT. -/
def firstLevel : Instr → Bool
  | .tx _ _ => true
  | .setlvl _ lvl => lvl
  | .breset _ => false
  | .delay _ => false
  | .reserved000 _ => false
  | .reserved101 _ => false
  | .reserved110 _ => false
  | .reserved111 _ => false

/-- R24, R85: a command that takes effect writes its own latch and no other. -/
theorem effect_level (i : Instr) (s : State) (q : Nat) : (effect i s).level q =
    match i.drivenPin with
    | some p => if p.toNat = q ∧ p.toNat < s.cfg.nPins then firstLevel i else s.level q
    | none => s.level q := by
  cases i <;> simp [effect, Instr.drivenPin, firstLevel, State.startDriving_level]

/-- R141: which faults a command records as it takes effect. -/
theorem effect_faults (i : Instr) (s : State) : (effect i s).faults =
    { s.faults with
      pinOutOfRange := s.faults.pinOutOfRange || !i.pinValid s.cfg
      resetTooShort := s.faults.resetTooShort || match i with
        | .breset _ => !s.cfg.resetLongEnough
        | _ => false } := by
  cases i <;>
    simp [effect, State.startDriving_faults, State.noteReset_faults, Instr.pinValid, Instr.drivenPin, pinExists]

namespace State

@[simp] theorem advance_cfg (s : State) (a : Active) : (s.advance a).cfg = s.cfg := by
  unfold advance; split <;> [rfl; (split <;> simp)]
@[simp] theorem advance_pend (s : State) (a : Active) : (s.advance a).pend = s.pend := by
  unfold advance; split <;> [rfl; (split <;> simp)]
@[simp] theorem advance_ill (s : State) (a : Active) : (s.advance a).ill = s.ill := by
  unfold advance; split <;> [rfl; (split <;> simp)]
@[simp] theorem advance_wasReset (s : State) (a : Active) : (s.advance a).wasReset = s.wasReset := by
  unfold advance; split <;> [rfl; (split <;> simp)]
@[simp] theorem advance_faults (s : State) (a : Active) : (s.advance a).faults = s.faults := by
  unfold advance; split <;> [rfl; (split <;> simp)]
@[simp] theorem advance_host (s : State) (a : Active) : (s.advance a).host = s.host := by
  unfold advance; split <;> [rfl; (split <;> simp)]
@[simp] theorem advance_platform (s : State) (a : Active) : (s.advance a).platform = s.platform := by
  unfold advance; split <;> [rfl; (split <;> simp)]

/-- Only legal words are pending (10_state.md R25): what step 1 of an edge needs to go on. -/
def PendLegal (s : State) : Prop := ∀ w, s.pend = some w → (decodeWord w).legal = true

/-- What `startOrRetire` answers when only legal words are pending. -/
def startNext (s : State) : State :=
  match s.pend with
  | some w => effect (decodeWord w) s.takePend
  | none => s.retire

/-- What step 1 of an edge answers when only legal words are pending. -/
def sequenceNext (s : State) : State :=
  match s.act with
  | some a => if a.finishing then s.startNext else s.advance a
  | none => s.startNext

theorem startOrRetire_eq {s : State} (h : s.PendLegal) : s.startOrRetire = .next s.startNext := by
  unfold startOrRetire startNext
  cases hp : s.pend with
  | none => rfl
  | some w =>
    simp only
    rw [if_pos (h w hp), exec_eq_effect]

theorem sequence_eq {s : State} (h : s.PendLegal) : s.sequence = .next s.sequenceNext := by
  unfold sequence sequenceNext
  rw [startOrRetire_eq h]
  cases s.act with
  | none => rfl
  | some a =>
    simp only
    cases a.finishing <;> rfl

/-- All that step 1 of an edge can do: advance, retire, or start the pending word. -/
theorem sequence_cases {s t : State} (h : s.sequence = .next t) :
    (∃ a, s.act = some a ∧ a.finishing = false ∧ t = s.advance a) ∨
    (s.free = true ∧ s.pend = none ∧ t = s.retire) ∨
    (∃ w, s.free = true ∧ s.pend = some w ∧ (decodeWord w).legal = true ∧ t = effect (decodeWord w) s.takePend) := by
  have start : s.free = true → s.startOrRetire = .next t →
      (s.free = true ∧ s.pend = none ∧ t = s.retire) ∨
      (∃ w, s.free = true ∧ s.pend = some w ∧ (decodeWord w).legal = true ∧
        t = effect (decodeWord w) s.takePend) := by
    intro hf hs
    unfold startOrRetire at hs
    split at hs
    · rename_i w hw
      split at hs
      · rename_i hl
        rw [exec_eq_effect] at hs
        cases hs
        exact .inr ⟨w, hf, hw, hl, rfl⟩
      · cases hs
    · rename_i hp
      cases hs
      exact .inl ⟨hf, hp, rfl⟩
  unfold sequence at h
  split at h
  · rename_i a ha
    split at h
    · rename_i hfin
      exact .inr (start (by simp [free, ha, hfin]) h)
    · rename_i hfin
      cases h
      exact .inl ⟨a, ha, by simpa using hfin, rfl⟩
  · rename_i ha
    exact .inr (start (by simp [free, ha]) h)

/-- The sequencer never changes these. -/
theorem sequence_frame {s t : State} (h : s.sequence = .next t) :
    t.cfg = s.cfg ∧ t.wasReset = s.wasReset ∧ t.host = s.host ∧ t.platform = s.platform ∧ t.ill = s.ill := by
  obtain ⟨a, -, -, rfl⟩ | ⟨-, -, rfl⟩ | ⟨w, -, -, hl, rfl⟩ := sequence_cases h
  · simp
  · simp
  · simp [effect_ill, hl]

end State
end Sys2Proof.Machine
end

