-- ==== Sys2Proof/Laws/Edge.lean ====
section
/-!
SUPPORT. What the host's access does at an edge, and all that a step can do, said once.
-/
namespace Sys2Proof.Machine

namespace State

/-- What `applyAccess` answers, in every state. -/
def accessNext (s : State) (x : Option Access) (t : State) : State :=
  match cmdWord x with
  | some v => if (decodeWord v).legal then if s.accepts then t.fillPend v else t else t.setIll
  | none =>
    match statusWrite x with
    | some v => if v.getLsbD 2 then t.clearIll else t
    | none => t

theorem applyAccess_eq (s : State) (x : Option Access) (t : State) :
    s.applyAccess x t = .next (s.accessNext x t) := by
  unfold applyAccess accessNext
  match x with
  | none => rfl
  | some (.read _ _) => rfl
  | some (.fetch _ _) => rfl
  | some (.write addr n v) =>
    by_cases ha : (Access.write addr n v).answered = true
    · by_cases h0 : addr % 256 = 0
      · simp only [cmdWord, ha, h0, decide_true, Bool.and_true, if_true, writeReg, cmdWrite]
        by_cases hl : (decodeWord v).legal = true
        · simp only [hl, if_true]; split <;> rfl
        · simp only [hl, exec_eq_effect]
          rw [effect_reserved (by simpa using hl)]; simp
      · by_cases h4 : addr % 256 = 4
        · simp only [cmdWord, statusWrite, ha, h4, writeReg]
          simp only [decide_true, Bool.and_true, if_true]
          norm_num
          split <;> rfl
        · simp only [cmdWord, statusWrite, ha, h0, h4, decide_false, Bool.and_false, if_true]
          unfold writeReg
          split <;> simp_all
    · simp [cmdWord, statusWrite, ha]

@[simp] theorem accessNext_cfg (s : State) (x : Option Access) (t : State) : (s.accessNext x t).cfg = t.cfg := by
  unfold accessNext; repeat' split
  all_goals rfl
@[simp] theorem accessNext_out (s : State) (x : Option Access) (t : State) : (s.accessNext x t).out = t.out := by
  unfold accessNext; repeat' split
  all_goals rfl
@[simp] theorem accessNext_level (s : State) (x : Option Access) (t : State) (q : Nat) :
    (s.accessNext x t).level q = t.level q := by simp [level]
@[simp] theorem accessNext_act (s : State) (x : Option Access) (t : State) : (s.accessNext x t).act = t.act := by
  unfold accessNext; repeat' split
  all_goals rfl
@[simp] theorem accessNext_wasReset (s : State) (x : Option Access) (t : State) :
    (s.accessNext x t).wasReset = t.wasReset := by
  unfold accessNext; repeat' split
  all_goals rfl
@[simp] theorem accessNext_faults (s : State) (x : Option Access) (t : State) :
    (s.accessNext x t).faults = t.faults := by
  unfold accessNext; repeat' split
  all_goals rfl
@[simp] theorem accessNext_host (s : State) (x : Option Access) (t : State) : (s.accessNext x t).host = t.host := by
  unfold accessNext; repeat' split
  all_goals rfl
@[simp] theorem accessNext_platform (s : State) (x : Option Access) (t : State) :
    (s.accessNext x t).platform = t.platform := by
  unfold accessNext; repeat' split
  all_goals rfl

/-- R92: an accepted word is in PEND; otherwise step 1's PEND stands. -/
theorem accessNext_pend (s : State) (x : Option Access) (t : State) : (s.accessNext x t).pend =
    match s.acceptedWord x with
    | some v => some v
    | none => t.pend := by
  unfold accessNext acceptedWord
  cases cmdWord x with
  | some v => by_cases hl : (decodeWord v).legal = true <;> by_cases ha : s.accepts = true <;> simp [hl, ha]
  | none => cases statusWrite x with
    | some v => simp; split <;> rfl
    | none => rfl

/-- R22: what an access does to ILL. -/
theorem accessNext_ill (s : State) (x : Option Access) (t : State) : (s.accessNext x t).ill =
    match cmdWord x with
    | some v => t.ill || !(decodeWord v).legal
    | none => match statusWrite x with
      | some v => t.ill && !v.getLsbD 2
      | none => t.ill := by
  unfold accessNext
  cases cmdWord x with
  | some v => by_cases hl : (decodeWord v).legal = true <;> by_cases ha : s.accepts = true <;> simp [hl, ha]
  | none => cases statusWrite x with
    | some v => cases hv : v.getLsbD 2 <;> simp only [hv] <;> simp
    | none => rfl

/-- An access with no word for CMD and no value for STATUS changes nothing (R42, R43, R44). -/
theorem accessNext_quiet (s : State) {x : Option Access} (t : State) (h0 : cmdWord x = none)
    (h4 : statusWrite x = none) : s.accessNext x t = t := by
  simp [accessNext, h0, h4]

/-- The state after an edge with RST low, when only legal words are pending. -/
def edgeNext (s : State) (oe : BitVec 32) : State :=
  s.endCycle false oe (s.accessNext s.access s.sequenceNext)

theorem runEdge_eq {s : State} (h : s.PendLegal) (oe : BitVec 32) : s.runEdge oe = .next (s.edgeNext oe) := by
  simp [runEdge, registersAfter, sequence_eq h, applyAccess_eq, edgeNext]

end State

/-- R90: a step of a live LPE at an edge with RST low. -/
theorem step_edge {s : State} {oe : BitVec 32} (hc : s.cfg.wellFormed = true) (hw : s.wasReset = true)
    (hs : s.slot = .edge false oe) : step s = s.runEdge oe := by
  simp [step, State.passSlot, hc, hs, State.clockEdge, hw]

/-- R90: the same, as a next state, when only legal words are pending. -/
theorem step_run {s : State} {oe : BitVec 32} (hc : s.cfg.wellFormed = true) (hw : s.wasReset = true)
    (hs : s.slot = .edge false oe) (hp : s.PendLegal) : step s = .next (s.edgeNext oe) := by
  rw [step_edge hc hw hs, State.runEdge_eq hp]

/-- R160: a step at an edge with RST high. -/
theorem step_reset {s : State} {oe : BitVec 32} (hc : s.cfg.wellFormed = true)
    (hs : s.slot = .edge true oe) : step s = .next (s.endCycle true oe s.resetRegisters) := by
  simp [step, State.passSlot, hc, hs, State.clockEdge]

/-- R163: a step before the first RST at an edge with RST low. -/
theorem step_unreset {s : State} {oe : BitVec 32} (hc : s.cfg.wellFormed = true) (hw : s.wasReset = false)
    (hs : s.slot = .edge false oe) : step s = s.unresetEdge oe := by
  simp [step, State.passSlot, hc, hs, State.clockEdge, hw]

/-- All that a step can do when it answers a next state. -/
theorem step_cases {s t : State} (h : step s = .next t) : s.cfg.wellFormed = true ∧
    ((∃ oe, s.slot = .edge true oe ∧ t = s.endCycle true oe s.resetRegisters) ∨
     (∃ oe u, s.slot = .edge false oe ∧ s.wasReset = true ∧ s.sequence = .next u ∧
        t = s.endCycle false oe (s.accessNext s.access u)) ∨
     (∃ oe, s.slot = .edge false oe ∧ s.wasReset = false ∧ s.access = none ∧ t = s.endCycle false oe s) ∨
     (s.slot = .clockStopped ∧ t = { s with platform := s.platform.tail }) ∨
     (s.slot = .powerLost ∧ t = { s with platform := s.platform.tail, wasReset := false })) := by
  unfold step State.passSlot at h
  split at h
  · rename_i hc
    refine ⟨hc, ?_⟩
    split at h
    · rename_i rst oe hs
      unfold State.clockEdge at h
      split at h
      · rename_i hr; subst hr; cases h; exact .inl ⟨oe, hs, rfl⟩
      · rename_i hr
        have hr' : rst = false := by simpa using hr
        subst hr'
        split at h
        · rename_i hw
          unfold State.runEdge State.registersAfter at h
          split at h <;> rename_i u hu
          · cases h
            split at hu <;> rename_i v hv
            · rw [State.applyAccess_eq] at hu
              cases hu
              exact .inr (.inl ⟨oe, v, hs, hw, hv, rfl⟩)
            · cases hu
            · cases hu
          · cases h
          · cases h
        · rename_i hw
          unfold State.unresetEdge at h
          split at h <;> rename_i ha
          · cases h
          · cases h; exact .inr (.inr (.inl ⟨oe, hs, by simpa using hw, ha, rfl⟩))
    · rename_i hs; cases h; exact .inr (.inr (.inr (.inl ⟨hs, rfl⟩)))
    · rename_i hs; cases h; exact .inr (.inr (.inr (.inr ⟨hs, rfl⟩)))
  · cases h

end Sys2Proof.Machine
end

