-- ==== Sys2Proof/Laws/Run.lean ====
section
/-!
SUPPORT. Runs of several cycles: `after`, the slots ahead, and one running cycle of a state of a run.
-/
namespace Sys2Proof.Machine

open Host (Outcome)

namespace State

@[simp] theorem after_zero (s : State) : s.after 0 = .next s := rfl

/-- One cycle, then `k` more. -/
theorem after_succ {s t : State} (k : Nat) (h : step s = .next t) : s.after (k + 1) = t.after k := by
  have h' : Sys2Proof.core.step s = .next t := h
  simp only [after, Host.Core.run, h']
  rfl

/-- `j` cycles, then `k` more. -/
theorem after_add {s t : State} (j k : Nat) (h : s.after j = .next t) : s.after (j + k) = t.after k := by
  induction j generalizing s with
  | zero => rw [after_zero] at h; cases h; rw [Nat.zero_add]
  | succ j ih =>
    cases hs : Sys2Proof.core.step s with
    | next u =>
      have hu : step s = .next u := hs
      rw [after_succ _ hu] at h
      rw [show j + 1 + k = (j + k) + 1 by omega, after_succ _ hu]
      exact ih h
    | fault r => simp [after, Host.Core.run, hs] at h
    | refused r => simp [after, Host.Core.run, hs] at h

theorem after_one {s t : State} (h : step s = .next t) : s.after 1 = .next t := after_succ 0 h

/-! The slots ahead. -/

theorem slotAfter_zero (s : State) : s.slotAfter 0 = s.slot := by
  unfold slotAfter slot
  cases s.platform <;> rfl

theorem slotAfter_tail {s t : State} (h : t.platform = s.platform.tail) (j : Nat) :
    t.slotAfter j = s.slotAfter (j + 1) := by
  unfold slotAfter; rw [h]; simp

/-- The slot of a running cycle. -/
theorem runsFor_slot {s : State} {k : Nat} (h : s.runsFor (k + 1)) : ∃ oe, s.slot = .edge false oe := by
  obtain ⟨oe, h0⟩ := h 0 (by omega)
  exact ⟨oe, by rwa [slotAfter_zero] at h0⟩

theorem runsFor_tail {s t : State} {k : Nat} (h : s.runsFor (k + 1)) (ht : t.platform = s.platform.tail) :
    t.runsFor k := by
  intro j hj
  rw [slotAfter_tail ht]
  exact h (j + 1) (by omega)

theorem runsFor_mono {s : State} {j k : Nat} (h : s.runsFor k) (hjk : j ≤ k) : s.runsFor j :=
  fun i hi => h i (by omega)

theorem live_iff (s : State) : s.live = true ↔ s.cfg.wellFormed = true ∧ s.wasReset = true := by
  simp [live]

/-! What `edgeNext` makes of each field. -/

@[simp] theorem startNext_cfg (s : State) : s.startNext.cfg = s.cfg := by unfold startNext; split <;> simp
@[simp] theorem startNext_wasReset (s : State) : s.startNext.wasReset = s.wasReset := by
  unfold startNext; split <;> simp
@[simp] theorem sequenceNext_cfg (s : State) : s.sequenceNext.cfg = s.cfg := by
  unfold sequenceNext; repeat' split
  all_goals simp
@[simp] theorem sequenceNext_wasReset (s : State) : s.sequenceNext.wasReset = s.wasReset := by
  unfold sequenceNext; repeat' split
  all_goals simp

@[simp] theorem edgeNext_cfg (s : State) (oe : BitVec 32) : (s.edgeNext oe).cfg = s.cfg := by simp [edgeNext]
@[simp] theorem edgeNext_wasReset (s : State) (oe : BitVec 32) : (s.edgeNext oe).wasReset = s.wasReset := by
  simp [edgeNext]
@[simp] theorem edgeNext_act (s : State) (oe : BitVec 32) : (s.edgeNext oe).act = s.sequenceNext.act := by
  simp [edgeNext]
@[simp] theorem edgeNext_out (s : State) (oe : BitVec 32) : (s.edgeNext oe).out = s.sequenceNext.out := by
  simp [edgeNext]
@[simp] theorem edgeNext_level (s : State) (oe : BitVec 32) (q : Nat) :
    (s.edgeNext oe).level q = s.sequenceNext.level q := by simp [edgeNext]
@[simp] theorem edgeNext_platform (s : State) (oe : BitVec 32) : (s.edgeNext oe).platform = s.platform.tail := by
  simp [edgeNext]
@[simp] theorem edgeNext_host (s : State) (oe : BitVec 32) : (s.edgeNext oe).host = s.hostAfter false := by
  simp [edgeNext]
theorem edgeNext_pend (s : State) (oe : BitVec 32) : (s.edgeNext oe).pend =
    match s.acceptedWord s.access with
    | some v => some v
    | none => s.sequenceNext.pend := by
  cases h : s.acceptedWord s.access <;> simp [edgeNext, accessNext_pend, h]

@[simp] theorem edgeNext_live (s : State) (oe : BitVec 32) : (s.edgeNext oe).live = s.live := by simp [live]

/-- Step 1 by cases on `free`. -/
theorem sequenceNext_of_free {s : State} (h : s.free = true) : s.sequenceNext = s.startNext := by
  unfold sequenceNext free at *
  split
  · rename_i a ha; rw [ha] at h; simp at h; simp [h]
  · rfl

theorem sequenceNext_of_busy {s : State} {a : Active} (ha : s.act = some a) (h : s.free = false) :
    s.sequenceNext = s.advance a := by
  unfold sequenceNext free at *
  rw [ha] at h ⊢
  simp at h
  simp [h]

end State

/-- A running cycle of a live LPE with only legal words pending goes on, and what is left to know of the next state. -/
theorem run_step {s : State} {k : Nat} (hl : s.live = true) (hp : s.PendLegal) (hr : s.runsFor (k + 1)) :
    ∃ oe, s.slot = .edge false oe ∧ step s = .next (s.edgeNext oe) ∧ (s.edgeNext oe).live = true ∧
      (s.edgeNext oe).runsFor k := by
  obtain ⟨oe, hs⟩ := State.runsFor_slot hr
  obtain ⟨hc, hw⟩ := (State.live_iff s).1 hl
  exact ⟨oe, hs, step_run hc hw hs hp, by simpa using hl, State.runsFor_tail hr (by simp)⟩

end Sys2Proof.Machine
end

