-- ==== Sys2Proof/Laws/HostSide.lean ====
section
/-!
SUPPORT. The sequencer does not look at the host: its share of an edge commutes with any change of the host's slots, so a
cycle in which the host's access does nothing is a cycle in which the host is silent.
-/
namespace Sys2Proof.Machine

namespace State

theorem setLevel_withHost (s : State) (p : Pin) (v : Bool) (h : List (Option Access)) :
    ({ s with host := h } : State).setLevel p v = { s.setLevel p v with host := h } := by
  show (if pinExists s.cfg p then _ else _) = _
  unfold setLevel
  cases pinExists s.cfg p <;> rfl

theorem notePin_withHost (s : State) (p : Pin) (h : List (Option Access)) :
    ({ s with host := h } : State).notePin p = { s.notePin p with host := h } := by
  show (if pinExists s.cfg p then _ else _) = _
  unfold notePin
  cases pinExists s.cfg p <;> rfl

theorem noteReset_withHost (s : State) (h : List (Option Access)) :
    ({ s with host := h } : State).noteReset = { s.noteReset with host := h } := by
  show (if s.cfg.resetLongEnough then _ else _) = _
  unfold noteReset
  cases s.cfg.resetLongEnough <;> rfl

theorem startDriving_withHost (s : State) (p : Pin) (v : Bool) (k : ActKind) (n : Count)
    (h : List (Option Access)) :
    ({ s with host := h } : State).startDriving p v k n = { s.startDriving p v k n with host := h } := by
  show (({ s.load k n with host := h } : State).setLevel p v).notePin p = _
  rw [setLevel_withHost, notePin_withHost]
  rfl

end State

theorem effect_withHost (i : Instr) (s : State) (h : List (Option Access)) :
    effect i { s with host := h } = { effect i s with host := h } := by
  cases i with
  | tx pin color => exact State.startDriving_withHost s _ _ _ _ h
  | breset pin =>
    show (({ s with host := h } : State).startDriving _ _ _ _).noteReset = _
    rw [State.startDriving_withHost, State.noteReset_withHost]
    rfl
  | setlvl pin lvl => exact State.startDriving_withHost s _ _ _ _ h
  | delay n => rfl
  | reserved000 x => rfl
  | reserved101 x => rfl
  | reserved110 x => rfl
  | reserved111 x => rfl

namespace State

theorem advance_withHost (s : State) (a : Active) (h : List (Option Access)) :
    ({ s with host := h } : State).advance a = { s.advance a with host := h } := by
  unfold advance
  split
  · rfl
  · split
    · exact setLevel_withHost (s.load _ _) _ _ h
    · exact setLevel_withHost (s.load _ _) _ _ h
    · rfl
    · rfl
    · rfl

/-- A change of the host's slots in an outcome's state. -/
def mapHost (h : List (Option Access)) : Host.Outcome State Fault Refusal → Host.Outcome State Fault Refusal
  | .next t => .next { t with host := h }
  | .fault r => .fault r
  | .refused r => .refused r

theorem startOrRetire_withHost (s : State) (h : List (Option Access)) :
    ({ s with host := h } : State).startOrRetire = mapHost h s.startOrRetire := by
  obtain ⟨cfg, out, pend, act, ill, wasReset, faults, host, platform⟩ := s
  cases pend with
  | none => rfl
  | some w =>
    simp only [startOrRetire, exec_eq_effect]
    by_cases hl : (decodeWord w).legal = true
    · rw [if_pos hl, if_pos hl]
      exact congrArg Host.Outcome.next
        (effect_withHost (decodeWord w) ⟨cfg, out, none, act, ill, wasReset, faults, host, platform⟩ h)
    · rw [if_neg hl, if_neg hl]; rfl

theorem sequence_withHost (s : State) (h : List (Option Access)) :
    ({ s with host := h } : State).sequence = mapHost h s.sequence := by
  have start := startOrRetire_withHost s h
  obtain ⟨cfg, out, pend, act, ill, wasReset, faults, host, platform⟩ := s
  cases act with
  | none => exact start
  | some a =>
    simp only [sequence]
    by_cases hf : a.finishing = true
    · rw [if_pos hf, if_pos hf]; exact start
    · rw [if_neg hf, if_neg hf]
      exact congrArg Host.Outcome.next
        (advance_withHost ⟨cfg, out, pend, some a, ill, wasReset, faults, host, platform⟩ a h)

@[simp] theorem access_silentNow (s : State) : s.silentNow.access = none := rfl

theorem hostAfter_silentNow (s : State) (r : Bool) : s.silentNow.hostAfter r = s.host.tail := by
  unfold hostAfter responseWith
  rw [access_silentNow]
  simp [silentNow]

/-- The end of a cycle does not look at the host's slots it replaces. -/
theorem endCycle_withHost (s t : State) (r : Bool) (oe : BitVec 32) (h : List (Option Access)) :
    s.endCycle r oe { t with host := h } = s.endCycle r oe t := rfl

/-- The end of a silent cycle is the end of the cycle itself, when the host's access does not stall. -/
theorem endCycle_silentNow {s : State} {r : Bool} (h : s.hostAfter r = s.host.tail) (oe : BitVec 32) (t : State) :
    s.silentNow.endCycle r oe t = s.endCycle r oe t := by
  unfold endCycle
  rw [hostAfter_silentNow, h]
  rfl

/-- A read, a fetch or a completed write leaves the host's next slot. -/
theorem hostAfter_completed {s : State} {r : Bool} (h : s.responseWith r ≠ some .stalled) :
    s.hostAfter r = s.host.tail := by
  unfold hostAfter; rw [if_neg h]

end State

/-- A clocked cycle with a given access, against the same cycle with the host silent: the access is applied on top. -/
theorem step_silentNow {s : State} {oe : BitVec 32} (hc : s.cfg.wellFormed = true) (hw : s.wasReset = true)
    (hs : s.slot = .edge false oe) : step s.silentNow =
      match s.sequence with
      | .next t => .next (s.silentNow.endCycle false oe t)
      | .fault r => .fault r
      | .refused r => .refused r := by
  have hcs : s.silentNow.cfg.wellFormed = true := hc
  have hws : s.silentNow.wasReset = true := hw
  have hss : s.silentNow.slot = .edge false oe := hs
  rw [step_edge hcs hws hss]
  simp only [State.runEdge, State.registersAfter, State.applyAccess_eq, State.access_silentNow]
  rw [show s.silentNow.sequence = State.mapHost (none :: s.host.tail) s.sequence from State.sequence_withHost s _]
  cases s.sequence with
  | next t => simp only [State.mapHost, State.accessNext, cmdWord, statusWrite]; rfl
  | fault r => rfl
  | refused r => rfl

/-- The same for the cycle itself. -/
theorem step_access {s : State} {oe : BitVec 32} (hc : s.cfg.wellFormed = true) (hw : s.wasReset = true)
    (hs : s.slot = .edge false oe) : step s =
      match s.sequence with
      | .next t => .next (s.endCycle false oe (s.accessNext s.access t))
      | .fault r => .fault r
      | .refused r => .refused r := by
  rw [step_edge hc hw hs]
  simp only [State.runEdge, State.registersAfter, State.applyAccess_eq]
  cases s.sequence <;> rfl

/-- An access that presents nothing to CMD or STATUS and does not stall might as well not be presented (R42, R43, R44). -/
theorem step_of_quiet {s : State} (hl : s.live = true) (hk : s.clocked = true) (h0 : cmdWord s.access = none)
    (h4 : statusWrite s.access = none) (hr : ∀ r, s.responseWith r ≠ some .stalled) : step s = step s.silentNow := by
  obtain ⟨hc, hw⟩ := (State.live_iff s).1 hl
  unfold State.clocked at hk
  cases hs : s.slot with
  | clockStopped => simp [hs] at hk
  | powerLost => simp [hs] at hk
  | edge rst oe =>
    cases rst with
    | true =>
      have hss : s.silentNow.slot = .edge true oe := hs
      rw [step_reset hc hs, step_reset (s := s.silentNow) hc hss,
        State.endCycle_silentNow (State.hostAfter_completed (hr true))]
      rfl
    | false =>
      rw [step_access hc hw hs, step_silentNow hc hw hs]
      cases s.sequence with
      | next t =>
        simp only [State.accessNext_quiet s t h0 h4, State.endCycle_silentNow (State.hostAfter_completed (hr false))]
      | fault r => rfl
      | refused r => rfl

end Sys2Proof.Machine
end

