-- ==== Sys2Proof/Laws/Sequencer.lean ====
section
/-!
SUPPORT. The sequencer under the run invariant: durations on well-formed parameters, what `advance` and the start of a
command do to ACT, its pin and the cycles left.
-/
namespace Sys2Proof.Machine

theorem Config.wellFormed_iff (c : Config) : c.wellFormed = true ↔
    1 ≤ c.tShort ∧ c.tShort < c.tLong ∧ c.tShort + c.tLong ≤ 16777215 ∧ (1 ≤ c.tReset ∧ c.tReset ≤ 16777215) ∧
      (1 ≤ c.nPins ∧ c.nPins ≤ 32) ∧ 0 < c.fClk ∧ c.base % 256 = 0 := by
  simp only [Config.wellFormed, Bool.and_eq_true, decide_eq_true_eq, and_assoc]
  exact Iff.rfl

theorem toCount_toNat {n : Nat} (h : n ≤ 16777215) : (toCount n).toNat = n := by
  simp only [toCount, BitVec.toNat_ofNat]
  omega

theorem hdur_toNat {c : Config} (h : c.wellFormed = true) (b : Bool) :
    (hdur c b).toNat = if b then c.tLong else c.tShort := by
  have := (Config.wellFormed_iff c).1 h
  cases b <;> exact toCount_toNat (by simp; omega)

theorem ldur_toNat {c : Config} (h : c.wellFormed = true) (b : Bool) :
    (ldur c b).toNat = if b then c.tShort else c.tLong := by
  have := (Config.wellFormed_iff c).1 h
  cases b <;> exact toCount_toNat (by simp; omega)

/-- R84: both phases of a bit are at least one cycle and add up to `T_BIT`. -/
theorem phases {c : Config} (h : c.wellFormed = true) (b : Bool) :
    1 ≤ (hdur c b).toNat ∧ 1 ≤ (ldur c b).toNat ∧ (hdur c b).toNat + (ldur c b).toNat = c.tBit := by
  have := (Config.wellFormed_iff c).1 h
  rw [hdur_toNat h, ldur_toNat h, Config.tBit]
  cases b <;> simp <;> omega

theorem delayCycles_toNat (n : Count) : (delayCycles n).toNat = max n.toNat 1 := by
  unfold delayCycles
  split
  · rename_i h; subst h; rfl
  · rename_i h
    have : n.toNat ≠ 0 := fun h0 => h (by apply BitVec.eq_of_toNat_eq; simpa using h0)
    omega

/-- One less of a count that is more than one. -/
theorem count_pred {n : Count} (h : 1 < n.toNat) : (n - 1).toNat = n.toNat - 1 := by
  rw [BitVec.toNat_sub_of_le (by rw [BitVec.le_def]; simp; omega)]; simp

/-- One less of a bit index that is not zero. -/
theorem bit_pred {n : BitVec 5} (h : n ≠ 0) : (n - 1).toNat = n.toNat - 1 ∧ 1 ≤ n.toNat := by
  have h0 : n.toNat ≠ 0 := fun h0 => h (by apply BitVec.eq_of_toNat_eq; simpa using h0)
  refine ⟨?_, by omega⟩
  rw [BitVec.toNat_sub_of_le (by rw [BitVec.le_def]; simp; omega)]; simp

theorem count_one {n : Count} (h1 : 1 ≤ n.toNat) (h2 : ¬ 1 < n.toNat) : n = 1 := by
  apply BitVec.eq_of_toNat_eq
  simp; omega

/-- The pin an active command drives. -/
def Active.pin : Active → Option Pin
  | ⟨.tx pin _ _ _, _⟩ => some pin
  | ⟨.breset pin, _⟩ => some pin
  | ⟨.setlvl pin, _⟩ => some pin
  | ⟨.delay, _⟩ => none

/-- R86 in numbers: under R27 a command finishes exactly when one cycle of it is left. -/
theorem finishing_iff {s : State} {a : Active} (hc : s.cfg.wellFormed = true) (ha : ActiveInv s a) :
    a.finishing = true ↔ a.remaining s.cfg = 1 := by
  have hwf := (Config.wellFormed_iff _).1 hc
  obtain ⟨kind, cnt⟩ := a
  obtain ⟨hpos, ha⟩ := ha
  have one : ∀ n : Count, n = 1 ↔ n.toNat = 1 := fun n =>
    ⟨fun h => by subst h; rfl, fun h => BitVec.eq_of_toNat_eq (by simpa using h)⟩
  simp only at hpos
  cases kind with
  | tx pin color bit phase =>
    have hl := (phases hc (colorBit color bit)).2.1
    have hz : bit = 0 ↔ bit.toNat = 0 :=
      ⟨fun h => by subst h; rfl, fun h => BitVec.eq_of_toNat_eq (by simpa using h)⟩
    cases phase with
    | high => simp [Active.finishing, Active.remaining]; omega
    | low =>
      simp only [Active.finishing, Active.remaining, decide_true, Bool.true_and, Bool.and_eq_true,
        decide_eq_true_eq, one, hz]
      have hb : 1 ≤ s.cfg.tBit := by unfold Config.tBit; omega
      constructor
      · rintro ⟨h1, h2⟩; rw [h1, h2]; omega
      · intro h
        by_cases hb0 : bit.toNat = 0
        · rw [hb0] at h; omega
        · have := Nat.mul_le_mul (Nat.one_le_iff_ne_zero.2 hb0) hb
          omega
  | breset pin => simp only [Active.finishing, Active.remaining, Bool.and_true, decide_eq_true_eq, one]
  | setlvl pin => simp only [Active.finishing, Active.remaining, Bool.and_true, decide_eq_true_eq, one]
  | delay => simp only [Active.finishing, Active.remaining, Bool.and_true, decide_eq_true_eq, one]

/-- Under R27 an active command has a cycle left. -/
theorem remaining_pos {s : State} {a : Active} (ha : ActiveInv s a) : 1 ≤ a.remaining s.cfg := by
  obtain ⟨kind, cnt⟩ := a
  obtain ⟨hpos, -⟩ := ha
  simp only at hpos
  cases kind with
  | tx pin color bit phase => cases phase <;> simp only [Active.remaining] <;> omega
  | breset pin => exact hpos
  | setlvl pin => exact hpos
  | delay => exact hpos

/-- R87: what `advance` does to an active command under R27: ACT stays valid, R27 holds of it again, one cycle less is
left, and no latch changes but a TX's own. -/
theorem advance_spec {s : State} {a : Active} (hc : s.cfg.wellFormed = true) (ha : ActiveInv s a)
    (hf : a.finishing = false) : ∃ b, (s.advance a).act = some b ∧ ActiveInv (s.advance a) b ∧
      b.remaining s.cfg + 1 = a.remaining s.cfg ∧ b.pin = a.pin ∧
      (∀ q, a.pin.map BitVec.toNat ≠ some q → (s.advance a).level q = s.level q) ∧
      (∀ q, s.cfg.nPins ≤ q → (s.advance a).level q = s.level q) := by
  have hwf := (Config.wellFormed_iff _).1 hc
  obtain ⟨kind, cnt⟩ := a
  obtain ⟨hpos, ha'⟩ := id ha
  simp only at hpos
  unfold State.advance
  by_cases h1 : 1 < cnt.toNat
  · simp only [h1, if_true]
    have hp := count_pred h1
    refine ⟨⟨kind, cnt - 1⟩, rfl, ⟨by simp only; omega, ?_⟩, ?_, ?_, fun q _ => rfl, fun q _ => rfl⟩
    · cases kind with
      | tx pin color bit phase =>
        obtain ⟨hb, hd, hlev⟩ := ha'
        refine ⟨hb, ?_, hlev⟩
        cases phase <;> simp only [State.load_cfg] at hd ⊢ <;> omega
      | breset pin =>
        refine ⟨?_, ha'.2⟩
        have := ha'.1
        simp only [State.load_cfg] at this ⊢
        omega
      | setlvl pin => simp only at ha'; subst ha'; simp at h1
      | delay => trivial
    · cases kind with
      | tx pin color bit phase => cases phase <;> simp only [Active.remaining] <;> omega
      | breset pin => simp only [Active.remaining]; omega
      | setlvl pin => simp only [Active.remaining]; omega
      | delay => simp only [Active.remaining]; omega
    · cases kind <;> rfl
  · have h1' := count_one hpos h1
    simp only [h1, if_false]
    cases kind with
    | tx pin color bit phase =>
      obtain ⟨hb, hd, hlev⟩ := ha'
      have hp5 : pin.toNat < 32 := pin.isLt
      cases phase with
      | high =>
        have ph := phases hc (colorBit color bit)
        refine ⟨⟨.tx pin color bit .low, ldur s.cfg (colorBit color bit)⟩, by simp, ⟨ph.2.1, ?_⟩, ?_, rfl, ?_, ?_⟩
        · refine ⟨hb, by simp, ?_⟩
          intro hpin
          simp only [State.setLevel_cfg, State.load_cfg] at hpin
          simp [State.level_setLevel, hpin]
        · simp only [Active.remaining, h1']; simp; omega
        · intro q hq
          have : pin.toNat ≠ q := fun h => hq (by simp [Active.pin, h])
          simp [State.level_setLevel, this]
        · intro q hq
          have : ¬ (pin.toNat = q ∧ pin.toNat < s.cfg.nPins) := by omega
          simp [State.level_setLevel, this]
      | low =>
        have hbit : bit ≠ 0 := by
          intro h; subst h; simp [Active.finishing, h1'] at hf
        obtain ⟨hbp, hb1⟩ := bit_pred hbit
        have ph := phases hc (colorBit color (bit - 1))
        refine ⟨⟨.tx pin color (bit - 1) .high, hdur s.cfg (colorBit color (bit - 1))⟩, by simp, ⟨ph.1, ?_⟩, ?_, rfl, ?_,
          ?_⟩
        · refine ⟨by rw [hbp]; omega, by simp, ?_⟩
          intro hpin
          simp only [State.setLevel_cfg, State.load_cfg] at hpin
          simp [State.level_setLevel, hpin]
        · simp only [Active.remaining, hbp]
          have hcn : cnt.toNat = 1 := by rw [h1']; rfl
          have : bit.toNat * s.cfg.tBit = (bit.toNat - 1) * s.cfg.tBit + s.cfg.tBit := by
            rw [← Nat.succ_mul]; congr 1; omega
          omega
        · intro q hq
          have : pin.toNat ≠ q := fun h => hq (by simp [Active.pin, h])
          simp [State.level_setLevel, this]
        · intro q hq
          have : ¬ (pin.toNat = q ∧ pin.toNat < s.cfg.nPins) := by omega
          simp [State.level_setLevel, this]
    | breset pin => simp [Active.finishing, h1'] at hf
    | setlvl pin => simp [Active.finishing, h1'] at hf
    | delay => simp [Active.finishing, h1'] at hf

end Sys2Proof.Machine
end

