-- ==== Sys2Proof/Laws/Timing.lean ====
section
/-!
SUPPORT. Segments against the sequencer: how lists of segments join, what is left of the active command as segments,
and that one cycle of the sequencer consumes one cycle of them.
-/
namespace Sys2Proof.Machine

theorem totalCycles_append (l m : List Segment) : totalCycles (l ++ m) = totalCycles l + totalCycles m := by
  induction l with
  | nil => simp [totalCycles]
  | cons g l ih => simp [totalCycles, ih]; omega

theorem levelAt_append (l m : List Segment) (t q : Nat) (b : Bool) : levelAt (l ++ m) t q b =
    if t < totalCycles l then levelAt l t q b else levelAt m (t - totalCycles l) q (levelAfter l q b) := by
  induction l generalizing t b with
  | nil => simp [totalCycles, levelAfter]
  | cons g l ih =>
    have tot : totalCycles (g :: l) = g.cycles + totalCycles l := rfl
    by_cases h : t < g.cycles
    · rw [if_pos (by omega)]
      simp only [List.cons_append, levelAt, if_pos h]
    · by_cases h2 : t - g.cycles < totalCycles l
      · rw [if_pos (by omega)]
        simp only [List.cons_append, levelAt, if_neg h, ih, if_pos h2]
      · rw [if_neg (by omega)]
        simp only [List.cons_append, levelAt, if_neg h, ih, if_neg h2, levelAfter, tot, Nat.sub_add_eq]

theorem bitSegments_total (c : Config) (pin : Pin) (color : Color) (i : Nat) :
    totalCycles (bitSegments c pin color i) = c.tBit := by
  unfold bitSegments totalCycles totalCycles totalCycles Config.tBit
  split <;> (simp; try omega)

theorem txSegments_total (c : Config) (pin : Pin) (color : Color) (n : Nat) :
    totalCycles (txSegments c pin color n) = n * c.tBit := by
  induction n with
  | zero => simp [txSegments, totalCycles]
  | succ n ih => rw [txSegments, totalCycles_append, bitSegments_total, ih, Nat.succ_mul]; omega

/-- What is left of the active command, from the current cycle on, as segments. A SETLVL's level is in its latch. -/
def Active.segments (c : Config) (a : Active) : List Segment :=
  match a.kind with
  | .tx pin color bit .high =>
    ⟨some (pin, true), a.cnt.toNat⟩ :: ⟨some (pin, false), (ldur c (colorBit color bit)).toNat⟩ ::
      txSegments c pin color bit.toNat
  | .tx pin color bit .low => ⟨some (pin, false), a.cnt.toNat⟩ :: txSegments c pin color bit.toNat
  | .breset pin => [⟨some (pin, false), a.cnt.toNat⟩]
  | .setlvl _ => [⟨none, a.cnt.toNat⟩]
  | .delay => [⟨none, a.cnt.toNat⟩]

theorem Active.segments_total (c : Config) (a : Active) : totalCycles (a.segments c) = a.remaining c := by
  obtain ⟨kind, cnt⟩ := a
  cases kind with
  | tx pin color bit phase =>
    cases phase <;> (simp [Active.segments, Active.remaining, totalCycles, txSegments_total]; try omega)
  | breset pin => simp [Active.segments, Active.remaining, totalCycles]
  | setlvl pin => simp [Active.segments, Active.remaining, totalCycles]
  | delay => simp [Active.segments, Active.remaining, totalCycles]

/-- Under R27 the latches show, in the current cycle, what the active command's segments drive. -/
theorem Active.segments_now {s : State} {a : Active} (ha : ActiveInv s a) {q : Nat} (hq : q < s.cfg.nPins) :
    levelAt (a.segments s.cfg) 0 q (s.level q) = s.level q := by
  obtain ⟨kind, cnt⟩ := a
  obtain ⟨hpos, ha⟩ := ha
  simp only at hpos
  have h0 : 0 < cnt.toNat := by omega
  cases kind with
  | tx pin color bit phase =>
    obtain ⟨-, -, hl⟩ := ha
    cases phase <;> simp only [Active.segments, levelAt, h0, if_true] <;> split <;> rename_i h <;>
      first | rfl | (subst h; simp [hl hq])
  | breset pin =>
    obtain ⟨-, hl⟩ := ha
    simp only [Active.segments, levelAt, h0, if_true]
    split <;> rename_i h
    · subst h; simp [hl hq]
    · rfl
  | setlvl pin => simp [Active.segments, levelAt]
  | delay => simp [Active.segments, levelAt]

/-- R87 as segments: what is left after `advance` is what was left, one cycle on. -/
theorem advance_segments {s : State} {a b : Active} (hc : s.cfg.wellFormed = true) (ha : ActiveInv s a)
    (hf : a.finishing = false) (hb : (s.advance a).act = some b) {q : Nat} (hq : q < s.cfg.nPins) (t : Nat) :
    levelAt (b.segments s.cfg) t q ((s.advance a).level q) = levelAt (a.segments s.cfg) (t + 1) q (s.level q) := by
  obtain ⟨kind, cnt⟩ := a
  obtain ⟨hpos, ha'⟩ := id ha
  simp only at hpos
  unfold State.advance at hb ⊢
  by_cases h1 : 1 < cnt.toNat
  · simp only [h1, if_true, State.load_act, State.load_level] at hb ⊢
    cases hb
    have hp := count_pred h1
    have e1 : (t < (cnt - 1).toNat) = (t + 1 < cnt.toNat) := by rw [hp]; simp only [eq_iff_iff]; omega
    have e2 : t - (cnt - 1).toNat = t + 1 - cnt.toNat := by omega
    cases kind with
    | tx pin color bit phase =>
      cases phase <;> simp only [Active.segments, levelAt, e1, e2]
    | breset pin => simp only [Active.segments, levelAt, e1]
    | setlvl pin => simp only [Active.segments, levelAt, e1]
    | delay => simp only [Active.segments, levelAt, e1]
  · have h1' := count_one hpos h1
    have hcn : cnt.toNat = 1 := by rw [h1']; rfl
    simp only [h1, if_false] at hb ⊢
    have n0 : ¬ (t + 1 < 1) := by omega
    have n1 : t + 1 - 1 = t := by omega
    cases kind with
    | tx pin color bit phase =>
      obtain ⟨hbb, hd, hlev⟩ := ha'
      have hp5 : pin.toNat < 32 := pin.isLt
      cases phase with
      | high =>
        simp only [State.setLevel_act, State.load_act, Option.some.injEq] at hb
        subst hb
        simp only [Active.segments, levelAt, hcn, n0, n1, if_false, State.level_setLevel, State.load_level,
          State.load_cfg]
        by_cases hpq : pin.toNat = q
        · subst hpq; simp
        · simp [hpq]
      | low =>
        have hbit : bit ≠ 0 := by
          intro h; subst h; simp [Active.finishing, h1'] at hf
        obtain ⟨hbp, hb1⟩ := bit_pred hbit
        simp only [State.setLevel_act, State.load_act, Option.some.injEq] at hb
        subst hb
        obtain ⟨n, hn⟩ : ∃ n, bit.toNat = n + 1 := ⟨bit.toNat - 1, by omega⟩
        have hn' : (bit - 1).toNat = n := by omega
        simp only [Active.segments, levelAt, hcn, n0, n1, if_false, State.level_setLevel, State.load_level,
          State.load_cfg, hn, txSegments, bitSegments, hn', colorBit, List.cons_append, List.nil_append]
        rw [hdur_toNat hc, ldur_toNat hc]
        by_cases hpq : pin.toNat = q
        · subst hpq; simp
        · simp [hpq]
    | breset pin => simp [Active.finishing, h1'] at hf
    | setlvl pin => simp [Active.finishing, h1'] at hf
    | delay => simp [Active.finishing, h1'] at hf

/-- R85, R82: a legal command that takes effect leaves ACT holding it, with R27, its duration to go, and its segments
ahead. -/
theorem effect_spec {s : State} {i : Instr} (hc : s.cfg.wellFormed = true) (hi : i.legal = true) :
    ∃ b, (effect i s).act = some b ∧ ActiveInv (effect i s) b ∧ b.remaining s.cfg = duration s.cfg i ∧
      ∀ q t, q < s.cfg.nPins →
        levelAt (b.segments s.cfg) t q ((effect i s).level q) = levelAt (segments s.cfg i) t q (s.level q) := by
  have hwf := (Config.wellFormed_iff _).1 hc
  have dur : ∀ b : Active, totalCycles (b.segments s.cfg) = totalCycles (segments s.cfg i) →
      b.remaining s.cfg = duration s.cfg i := fun b h => by rw [← Active.segments_total, h]; rfl
  cases i with
  | tx pin color =>
    have ph := phases hc (colorBit color 23)
    have hp5 : pin.toNat < 32 := pin.isLt
    refine ⟨⟨.tx pin color 23 .high, hdur s.cfg (colorBit color 23)⟩, by simp [effect], ⟨ph.1, ?_⟩, dur _ ?_, ?_⟩
    · refine ⟨by decide, by simp, ?_⟩
      intro hp
      simp only [effect_cfg] at hp
      simp [effect, State.startDriving_level, hp]
    · have : (23 : BitVec 5).toNat = 23 := rfl
      simp only [Active.segments, segments, this, txSegments_total, totalCycles]
      have : Config.tBit s.cfg = (hdur s.cfg (colorBit color 23)).toNat + (ldur s.cfg (colorBit color 23)).toNat :=
        ph.2.2.symm
      omega
    · intro q t hq
      have h23 : (23 : BitVec 5).toNat = 23 := rfl
      simp only [Active.segments, segments, h23]
      rw [show txSegments s.cfg pin color 24 = bitSegments s.cfg pin color 23 ++ txSegments s.cfg pin color 23 from rfl]
      simp only [bitSegments, List.cons_append, List.nil_append, levelAt, hdur_toNat hc, ldur_toNat hc, colorBit, h23,
        effect, State.startDriving_level]
      by_cases hpq : pin.toNat = q
      · subst hpq; simp
      · simp [hpq]
  | breset pin =>
    have hcn : (toCount s.cfg.tReset).toNat = s.cfg.tReset := toCount_toNat (by omega)
    refine ⟨⟨.breset pin, toCount s.cfg.tReset⟩, by simp [effect], ⟨by simp only [hcn]; omega, ?_⟩, dur _ ?_, ?_⟩
    · refine ⟨by simp only [hcn, effect_cfg, le_refl], ?_⟩
      intro hp
      simp only [effect_cfg] at hp
      simp [effect, State.startDriving_level, hp]
    · simp only [Active.segments, segments, hcn]
    · intro q t hq
      simp only [Active.segments, segments, hcn, levelAt, effect, State.noteReset_level, State.startDriving_level]
      by_cases hpq : pin.toNat = q
      · subst hpq; simp
      · simp [hpq]
  | setlvl pin lvl =>
    refine ⟨⟨.setlvl pin, 1⟩, by simp [effect], ⟨by show 1 ≤ (1 : Count).toNat; decide, rfl⟩, dur _ ?_, ?_⟩
    · rfl
    · intro q t hq
      have : (1 : Count).toNat = 1 := rfl
      simp only [Active.segments, segments, levelAt, effect, State.startDriving_level, this]
      by_cases hpq : pin.toNat = q
      · subst hpq; simp [hq]
      · simp [hpq]
  | delay n =>
    refine ⟨⟨.delay, delayCycles n⟩, by simp [effect], ⟨by simp only [delayCycles_toNat]; omega, trivial⟩, dur _ ?_, ?_⟩
    · simp only [Active.segments, segments, delayCycles_toNat]
    · intro q t hq
      simp only [Active.segments, segments, levelAt, effect, State.load_level, delayCycles_toNat]
  | reserved000 x => cases hi
  | reserved101 x => cases hi
  | reserved110 x => cases hi
  | reserved111 x => cases hi

end Sys2Proof.Machine
end

