-- ==== Sys2Proof/Laws/Invariant.lean ====
section
/-!
SUPPORT. One running cycle under the run invariant: which words can become pending, what the sequencer's share of the
edge does to R27, and the cycles through which a command stays active.
-/
namespace Sys2Proof.Machine

theorem RegistersInv.pend {s : State} (h : RegistersInv s) : s.PendLegal := h.pendLegal

/-- R27 looks at ACT, the latches and the parameters alone. -/
theorem ActiveInv.congr {s t : State} {a : Active} (hc : t.cfg = s.cfg) (hl : ∀ q, t.level q = s.level q)
    (h : ActiveInv s a) : ActiveInv t a := by
  unfold ActiveInv at *
  simp only [hc, hl]
  exact h

/-- Only legal words are accepted (R25). -/
theorem acceptedWord_legal {s : State} {x : Option Access} {w : Word} (h : s.acceptedWord x = some w) :
    (decodeWord w).legal = true := by
  unfold State.acceptedWord at h
  split at h
  · split at h
    · rename_i v _ hv
      cases h
      simp at hv
      exact hv.1
    · cases h
  · cases h

/-- R90 step 1 keeps R24 and R27. -/
theorem sequenceNext_inv {s : State} (hc : s.cfg.wellFormed = true) (h : RegistersInv s) :
    (∀ p, s.cfg.nPins ≤ p → s.sequenceNext.level p = false) ∧
    (∀ a, s.sequenceNext.act = some a → ActiveInv s.sequenceNext a) := by
  by_cases hf : s.free = true
  · rw [State.sequenceNext_of_free hf]
    unfold State.startNext
    cases hp : s.pend with
    | none => exact ⟨fun p hq => by simpa using h.noLatchAbove p hq, fun a ha => by simp at ha⟩
    | some w =>
      obtain ⟨b, hb, hinv, -, -⟩ := effect_spec (s := s.takePend) (i := decodeWord w) (by simpa using hc)
        (h.pendLegal w hp)
      refine ⟨fun p hq => ?_, fun a ha => ?_⟩
      · have := h.noLatchAbove p hq
        have hne : ∀ x : Pin, ¬ (x.toNat = p ∧ x.toNat < s.takePend.cfg.nPins) := by
          intro x; simp only [State.takePend_cfg]; omega
        rw [effect_level]
        split
        · rw [if_neg (hne _)]; exact this
        · exact this
      · simp only at ha
        rw [hb] at ha; cases ha; exact hinv
  · have hf' : s.free = false := by simpa using hf
    cases ha : s.act with
    | none => simp [State.free, ha] at hf'
    | some a =>
      rw [State.sequenceNext_of_busy ha hf']
      have hfin : a.finishing = false := by simpa [State.free, ha] using hf'
      obtain ⟨b, hb, hinv, -, -, -, habove⟩ := advance_spec hc (h.active a ha) hfin
      refine ⟨fun p hq => by rw [habove p hq]; exact h.noLatchAbove p hq, fun c hc' => ?_⟩
      rw [hb] at hc'; cases hc'; exact hinv

/-- The sequencer leaves in PEND what was there, or nothing. -/
theorem sequenceNext_pend {s : State} : s.sequenceNext.pend = if s.free then none else s.pend := by
  by_cases hf : s.free = true
  · rw [State.sequenceNext_of_free hf, if_pos hf]
    unfold State.startNext
    cases hp : s.pend <;> simp [hp]
  · have hf' : s.free = false := by simpa using hf
    rw [if_neg hf]
    cases ha : s.act with
    | none => simp [State.free, ha] at hf'
    | some a => rw [State.sequenceNext_of_busy ha hf']; simp

/-- PEND after a running edge: the accepted word, or what was there unless it entered ACT (R90). -/
theorem edgeNext_pend' (s : State) (oe : BitVec 32) : (s.edgeNext oe).pend =
    match s.acceptedWord s.access with
    | some v => some v
    | none => if s.free then none else s.pend := by
  cases h : s.acceptedWord s.access <;> simp [State.edgeNext_pend, sequenceNext_pend, h]

/-- A running edge keeps the registers' invariant. -/
theorem edgeNext_registers {s : State} (hc : s.cfg.wellFormed = true) (h : RegistersInv s) (oe : BitVec 32) :
    RegistersInv (s.edgeNext oe) := by
  obtain ⟨h1, h2⟩ := sequenceNext_inv hc h
  refine ⟨fun p hp => by simpa using h1 p (by simpa using hp), fun w hw => ?_, fun a ha => ?_⟩
  · rw [edgeNext_pend'] at hw
    split at hw
    · rename_i v hv; cases hw; exact acceptedWord_legal hv
    · split at hw
      · cases hw
      · exact h.pendLegal w hw
  · exact (h2 a (by simpa using ha)).congr (by simp) (by simp)

/-- R86 in numbers: ACT is free in an idle cycle and in the last cycle of a command. -/
theorem free_iff {s : State} (hc : s.cfg.wellFormed = true) (h : RegistersInv s) :
    s.free = true ↔ s.remaining ≤ 1 := by
  unfold State.free State.remaining
  cases ha : s.act with
  | none => simp
  | some a =>
    have := remaining_pos (h.active a ha)
    simp only [finishing_iff hc (h.active a ha)]
    omega

/-- A state of a run: what a running cycle needs and keeps. -/
structure Running (s : State) : Prop where
  live : s.live = true
  registers : RegistersInv s

theorem Running.wf {s : State} (h : Running s) : s.cfg.wellFormed = true := ((State.live_iff s).1 h.live).1

/-- One running cycle. -/
theorem Running.step {s : State} {k : Nat} (h : Running s) (hr : s.runsFor (k + 1)) :
    ∃ oe, s.slot = .edge false oe ∧ Machine.step s = .next (s.edgeNext oe) ∧ Running (s.edgeNext oe) ∧
      (s.edgeNext oe).runsFor k := by
  obtain ⟨oe, hs, hst, hl, hr'⟩ := run_step h.live h.registers.pend hr
  exact ⟨oe, hs, hst, ⟨hl, edgeNext_registers h.wf h.registers oe⟩, hr'⟩

/-- Runs without RST go on. -/
theorem Running.after {s : State} {k : Nat} (h : Running s) (hr : s.runsFor k) :
    ∃ u, s.after k = .next u ∧ Running u ∧ u.cfg = s.cfg := by
  induction k generalizing s with
  | zero => exact ⟨s, rfl, h, rfl⟩
  | succ k ih =>
    obtain ⟨oe, -, hst, hR, hr'⟩ := h.step hr
    obtain ⟨u, hu, hRu, hcu⟩ := ih hR hr'
    exact ⟨u, by rw [State.after_succ k hst, hu], hRu, by rw [hcu]; simp⟩

/-- Runs without RST go on, and what is left of the slots ahead. -/
theorem Running.after_runsFor {s : State} {j k : Nat} (h : Running s) (hr : s.runsFor (j + k)) :
    ∃ u, s.after j = .next u ∧ Running u ∧ u.cfg = s.cfg ∧ u.runsFor k := by
  induction j generalizing s with
  | zero => exact ⟨s, rfl, h, rfl, by simpa using hr⟩
  | succ j ih =>
    obtain ⟨oe, -, hst, hR, hr'⟩ := h.step (k := j + k) (by rwa [Nat.add_right_comm] at hr)
    obtain ⟨u, hu, hRu, hcu, hru⟩ := ih hR hr'
    exact ⟨u, by rw [State.after_succ j hst, hu], hRu, by rw [hcu]; simp, hru⟩

/-- A cycle in which the active command goes on: R87 as the next state's ACT, latches and cycles left. -/
theorem Running.step_busy {s : State} {a : Active} (h : Running s) (ha : s.act = some a)
    (hrem : 1 < a.remaining s.cfg) (oe : BitVec 32) : ∃ b, (s.edgeNext oe).act = some b ∧
      b.remaining s.cfg + 1 = a.remaining s.cfg ∧
      ∀ q t, q < s.cfg.nPins →
        levelAt (b.segments s.cfg) t q ((s.edgeNext oe).level q) = levelAt (a.segments s.cfg) (t + 1) q (s.level q) := by
  have hinv := h.registers.active a ha
  have hfin : a.finishing = false := by
    cases hf : a.finishing with
    | false => rfl
    | true => have := (finishing_iff h.wf hinv).1 hf; omega
  have hfree : s.free = false := by simp [State.free, ha, hfin]
  obtain ⟨b, hb, -, hr, -⟩ := advance_spec h.wf hinv hfin
  refine ⟨b, by simp [State.sequenceNext_of_busy ha hfree, hb], hr, fun q t hq => ?_⟩
  rw [State.edgeNext_level, State.sequenceNext_of_busy ha hfree]
  exact advance_segments h.wf hinv hfin hb hq t

/-- A cycle in which the pending command enters ACT: R85 as the next state's ACT, latches and cycles left. -/
theorem Running.step_start {s : State} {w : Word} (h : Running s) (hf : s.free = true) (hp : s.pend = some w)
    (oe : BitVec 32) : ∃ b, (s.edgeNext oe).act = some b ∧
      b.remaining s.cfg = duration s.cfg (decodeWord w) ∧
      ∀ q t, q < s.cfg.nPins → levelAt (b.segments s.cfg) t q ((s.edgeNext oe).level q) =
        levelAt (segments s.cfg (decodeWord w)) t q (s.level q) := by
  obtain ⟨b, hb, -, hr, hl⟩ := effect_spec (s := s.takePend) (i := decodeWord w) (by simpa using h.wf)
    (h.registers.pendLegal w hp)
  have hs : s.sequenceNext = effect (decodeWord w) s.takePend := by
    rw [State.sequenceNext_of_free hf]; simp [State.startNext, hp]
  refine ⟨b, by simp [hs, hb], hr, fun q t hq => ?_⟩
  rw [State.edgeNext_level, hs]
  exact hl q t hq

/-- The cycles of an active command before its last one is over: it stays active, counts down, and the latches show its
segments. -/
theorem Running.active {s : State} {a : Active} {k : Nat} (h : Running s) (ha : s.act = some a)
    (hk : k < a.remaining s.cfg) (hr : s.runsFor k) : ∃ u b, s.after k = .next u ∧ Running u ∧ u.cfg = s.cfg ∧
      u.act = some b ∧ b.remaining s.cfg + k = a.remaining s.cfg ∧
      ∀ q t, q < s.cfg.nPins →
        levelAt (b.segments s.cfg) t q (u.level q) = levelAt (a.segments s.cfg) (t + k) q (s.level q) := by
  induction k generalizing s a with
  | zero => exact ⟨s, a, rfl, h, rfl, ha, rfl, fun q t _ => rfl⟩
  | succ k ih =>
    obtain ⟨oe, -, hst, hR, hr'⟩ := h.step hr
    obtain ⟨b, hb, hbr, hbl⟩ := h.step_busy ha (by omega) oe
    obtain ⟨u, c, hu, hRu, hcu, hcact, hcr, hcl⟩ := ih hR hb (by simp only [State.edgeNext_cfg]; omega) hr'
    simp only [State.edgeNext_cfg] at hcu hcr hcl
    refine ⟨u, c, by rw [State.after_succ k hst, hu], hRu, hcu, hcact, by omega, fun q t hq => ?_⟩
    rw [hcl q t hq, hbl q (t + k) hq, Nat.add_assoc]

/-- The level that an active command's segments give a latch in the current cycle is the latch's. -/
theorem Running.level_now {s : State} {a : Active} (h : Running s) (ha : s.act = some a) {q : Nat}
    (hq : q < s.cfg.nPins) : levelAt (a.segments s.cfg) 0 q (s.level q) = s.level q :=
  Active.segments_now (h.registers.active a ha) hq

theorem Starting.running {s : State} {i : Instr} (h : Starting s i) : Running s := ⟨h.live, h.registers⟩

theorem Starting.legal {s : State} {i : Instr} (h : Starting s i) : i.legal = true := by
  obtain ⟨w, hw, rfl⟩ := h.pending
  exact h.registers.pendLegal w hw

/-- Cycle `k` of a command that enters ACT now: it is active, with the rest of its duration left, and the latches show
the rest of its segments. -/
theorem Starting.after {s : State} {i : Instr} {k : Nat} (h : Starting s i) (hk : k < duration s.cfg i)
    (hr : s.runsFor (1 + k)) : ∃ u b, s.after (1 + k) = .next u ∧ Running u ∧ u.cfg = s.cfg ∧ u.act = some b ∧
      b.remaining s.cfg + k = duration s.cfg i ∧
      ∀ q t, q < s.cfg.nPins →
        levelAt (b.segments s.cfg) t q (u.level q) = levelAt (segments s.cfg i) (t + k) q (s.level q) := by
  have hR := h.running
  obtain ⟨w, hw, rfl⟩ := h.pending
  rw [Nat.add_comm] at hr ⊢
  obtain ⟨oe, -, hst, hR', hr'⟩ := hR.step hr
  obtain ⟨b, hb, hbr, hbl⟩ := hR.step_start h.free hw oe
  obtain ⟨u, c, hu, hRu, hcu, hact, hrem, hl⟩ := hR'.active hb (by simp only [State.edgeNext_cfg]; omega) hr'
  simp only [State.edgeNext_cfg] at hcu hrem hl
  exact ⟨u, c, by rw [State.after_succ k hst, hu], hRu, hcu, hact, by omega,
    fun q t hq => by rw [hl q t hq, hbl _ _ hq]⟩

end Sys2Proof.Machine
end

