-- ==== Sys2Proof/Laws/Observe.lean ====
section
/-!
SUPPORT. What the observations of Safety.lean answer (00_scope.md R13, 60_exceptions.md R141), once each.
-/
namespace Sys2Proof.Machine
namespace State

/-- A slot is known past the first RST, unless power is lost in it. -/
theorem known_iff (s : State) : s.known = true ↔ s.wasReset = true ∧ s.slot ≠ .powerLost := by
  unfold known
  cases s.slot <;> simp

/-- A slot with an edge is known exactly past the first RST. -/
theorem known_of_edge {s : State} {rst : Bool} {oe : BitVec 32} (h : s.slot = .edge rst oe) : s.known = s.wasReset := by
  unfold known; rw [h]

/-- Nothing is known of an LPE before its first RST (R163). -/
theorem known_of_unreset {s : State} (h : s.wasReset = false) : s.known = false := by
  cases hk : s.known with
  | false => rfl
  | true => rw [((known_iff s).1 hk).1] at h; cases h

/-- A pad is driven from its latch exactly in a slot with an edge and its output-enable, with no PinNotOutput recorded. -/
theorem padDriven_iff (s : State) (p : Nat) : s.padDriven p = true ↔
    s.faults.pinNotOutput = false ∧ ∃ rst oe, s.slot = .edge rst oe ∧ oe.getLsbD p = true := by
  unfold padDriven
  cases s.slot <;> simp [and_comm]

/-- A pad claim answers what the pin claim answers, where the pad is driven. -/
theorem observePad_ok_iff (s : State) (p : Nat) (b : Bool) :
    s.observePad p = .ok b ↔ s.observePin p = .ok b ∧ s.padDriven p = true := by
  unfold observePad
  cases s.observePin p with
  | error fault => simp
  | ok level => cases s.padDriven p <;> simp

/-- The fault of a pin claim is the fault of the pad claim (log 25). -/
theorem observePad_error {s : State} {p : Nat} {fault : Fault} (h : s.observePin p = .error fault) :
    s.observePad p = .error fault := by
  unfold observePad; rw [h]

/-- The host's observation of a cycle that ends in an edge past the first RST is the response of the cycle. -/
theorem observeHost_edge {s : State} {rst : Bool} {oe : BitVec 32} (hw : s.wasReset = true)
    (hs : s.slot = .edge rst oe) : s.observeHost = .ok (s.responseWith rst) := by
  unfold observeHost responseWith
  rw [known_of_edge hs, hw, hs]
  cases s.access <;> rfl

end State
end Sys2Proof.Machine
end

