-- ==== Sys2Proof/Laws/PerInstr.lean ====
section
/-!
SUPPORT. Statements about every command as syntax, one lemma per constructor. `OpField`: an encoded command carries the
OP value of its row in 30_encoding.md R61, and is told from a reserved word by it (R67).
-/
namespace Sys2Proof.Laws.OpField

/-- The OP value of a command's row (30_encoding.md R61). -/
def opValue : Instr → Nat
  | .tx _ _ => 1
  | .breset _ => 2
  | .setlvl _ _ => 3
  | .delay _ => 4
  | .reserved000 _ => 0
  | .reserved101 _ => 5
  | .reserved110 _ => 6
  | .reserved111 _ => 7

/-- The top three bits of the encoded word are the row's OP value; the command is legal exactly for OP 1 to 4. -/
def Statement (i : Instr) : Prop :=
  (encode i).toNat / 2 ^ 29 = opValue i ∧ i.legal = (decide (1 ≤ opValue i) && decide (opValue i ≤ 4))

theorem op_of_packWord (op : BitVec 3) (pin : Pin) (payload : BitVec 24) :
    (packWord op pin payload).toNat / 2 ^ 29 = op.toNat := by
  rw [packWord_toNat]
  omega

theorem op_of_append (op : BitVec 3) (x : BitVec 29) : (op ++ x).toNat / 2 ^ 29 = op.toNat := by
  rw [append_toNat]
  omega

theorem tx (pin : Pin) (color : Color) : Statement (.tx pin color) := ⟨op_of_packWord _ _ _, rfl⟩

theorem breset (pin : Pin) : Statement (.breset pin) := ⟨op_of_packWord _ _ _, rfl⟩

theorem setlvl (pin : Pin) (lvl : Bool) : Statement (.setlvl pin lvl) := ⟨op_of_packWord _ _ _, rfl⟩

theorem delay (n : Count) : Statement (.delay n) := ⟨op_of_packWord _ _ _, rfl⟩

theorem reserved000 (x : BitVec 29) : Statement (.reserved000 x) := ⟨op_of_append _ _, rfl⟩

theorem reserved101 (x : BitVec 29) : Statement (.reserved101 x) := ⟨op_of_append _ _, rfl⟩

theorem reserved110 (x : BitVec 29) : Statement (.reserved110 x) := ⟨op_of_append _ _, rfl⟩

theorem reserved111 (x : BitVec 29) : Statement (.reserved111 x) := ⟨op_of_append _ _, rfl⟩

end Sys2Proof.Laws.OpField
end

