-- ==== Sys2Proof/Laws/Queue.lean ====
section
/-!
SUPPORT. The queue over several cycles: the cycles left from one cycle to the next, a word waiting in PEND, and what a
write to CMD meets.
-/
namespace Sys2Proof.Machine

theorem Running.running {s : State} (h : Running s) {oe : BitVec 32} (hs : s.slot = .edge false oe) :
    s.running = true := by
  obtain ⟨h1, h2⟩ := (State.live_iff s).1 h.live
  simp [State.running, h1, h2, hs]

/-- R86: with more than one cycle of the active command left, ACT is not free. -/
theorem Running.not_free {s : State} (h : Running s) (hr : 1 < s.remaining) : s.free = false := by
  cases hf : s.free with
  | false => rfl
  | true => have := (free_iff h.wf h.registers).1 hf; omega

/-- R91: a word is accepted only where there is room. -/
theorem accepts_of_accepted {s : State} {x : Option Access} {v : Word} (h : s.acceptedWord x = some v) :
    s.accepts = true := by
  unfold State.acceptedWord at h
  split at h
  · split at h
    · rename_i hv; simp at hv; exact hv.2
    · cases h
  · cases h

/-- R82: a legal command lasts at least one cycle. -/
theorem duration_pos {c : Config} (h : c.wellFormed = true) {i : Instr} (hi : i.legal = true) : 1 ≤ duration c i := by
  have hwf := (Config.wellFormed_iff _).1 h
  cases i with
  | tx pin color => show 1 ≤ totalCycles (txSegments c pin color 24); rw [txSegments_total]; unfold Config.tBit; omega
  | breset pin => show 1 ≤ c.tReset; omega
  | setlvl pin lvl => exact Nat.le_refl 1
  | delay n => show 1 ≤ max n.toNat 1; omega
  | reserved000 x => cases hi
  | reserved101 x => cases hi
  | reserved110 x => cases hi
  | reserved111 x => cases hi

/-- The cycles left after a running edge: one less, or the duration of the command that enters ACT, or none. -/
theorem Running.remaining_next {s : State} (h : Running s) (oe : BitVec 32) : (s.edgeNext oe).remaining =
    if s.free then (match s.pend with | some w => duration s.cfg (decodeWord w) | none => 0) else s.remaining - 1 := by
  by_cases hf : s.free = true
  · rw [if_pos hf]
    cases hp : s.pend with
    | none => simp [State.remaining, State.sequenceNext_of_free hf, State.startNext, hp]
    | some w =>
      obtain ⟨b, hb, hr, -⟩ := h.step_start hf hp oe
      unfold State.remaining; rw [hb]; simp only [State.edgeNext_cfg]; exact hr
  · have hf : s.free = false := by simpa using hf
    have hr : 1 < s.remaining := by
      by_contra hr
      have := (free_iff h.wf h.registers).2 (by omega)
      rw [hf] at this; cases this
    rw [hf]
    cases ha : s.act with
    | none => simp [State.remaining, ha] at hr
    | some a =>
      have hr' : 1 < a.remaining s.cfg := by simpa [State.remaining, ha] using hr
      obtain ⟨b, hb, hr, -⟩ := h.step_busy ha hr' oe
      unfold State.remaining
      rw [hb, ha]
      simp only [State.edgeNext_cfg, Bool.false_eq_true, if_false]
      omega

/-- A word waits in PEND, and nothing is accepted, through every cycle in which ACT is not free. -/
theorem Running.waiting {s : State} {w : Word} {m : Nat} (h : Running s) (hp : s.pend = some w)
    (hm : m < max s.remaining 1) (hr : s.runsFor m) : ∃ u, s.after m = .next u ∧ Running u ∧ u.cfg = s.cfg ∧
      u.pend = some w ∧ u.remaining = s.remaining - m := by
  induction m generalizing s with
  | zero => exact ⟨s, rfl, h, rfl, hp, rfl⟩
  | succ m ih =>
    obtain ⟨oe, -, hst, hR, hr'⟩ := h.step hr
    have hf : s.free = false := h.not_free (by omega)
    have hna : s.acceptedWord s.access = none := by
      cases ha : s.acceptedWord s.access with
      | none => rfl
      | some v => have := accepts_of_accepted ha; simp [State.accepts, State.pending, hf, hp] at this
    have hp' : (s.edgeNext oe).pend = some w := by rw [edgeNext_pend']; simp [hna, hf, hp]
    have hrem := h.remaining_next oe
    rw [hf] at hrem
    simp only [Bool.false_eq_true, if_false] at hrem
    obtain ⟨u, hu, hRu, h1, h2, h3⟩ := ih hR hp' (by omega) hr'
    exact ⟨u, by rw [State.after_succ m hst, hu], hRu, by rw [h1]; simp, h2, by omega⟩

/-- What the response to a write to CMD is, and the word it presents (R58, R91). -/
theorem cmd_write {s : State} {addr : Nat} {v : Word} (ha : s.access = some (.write addr 4 v)) (h0 : addr % 256 = 0) :
    s.responseWith false = some (s.cmdResponse v) ∧ cmdWord s.access = some v := by
  have hans : (Access.write addr 4 v).answered = true := by
    simp [Access.answered, Access.size, Access.offset, Access.addr]; omega
  constructor
  · simp [State.responseWith, ha, State.respond, hans, Access.offset, Access.addr, h0]
  · rw [ha]; simp [cmdWord, hans, h0]

/-- The access of a cycle depends on the host's slots and on `BASE` alone. -/
theorem access_congr {s u : State} (h : u.host = s.host) (hc : u.cfg = s.cfg) : u.access = s.access := by
  unfold State.access; rw [h, hc]

/-- A host whose next slot writes a word to CMD presents that write (30_encoding.md R71). -/
theorem access_cmdSlot {s : State} {w : Word} {rest : List (Option Access)} (h : s.host = cmdSlot s.cfg w :: rest) :
    s.access = some (.write s.cfg.base 4 w) := by
  unfold State.access; rw [h]; simp [cmdSlot, Access.selects, Access.addr]

/-- Every segment of a legal command lasts a cycle (R81), and it has one. -/
theorem segments_pos {c : Config} (hc : c.wellFormed = true) {i : Instr} (hi : i.legal = true) :
    (∀ g ∈ segments c i, 1 ≤ g.cycles) ∧ segments c i ≠ [] := by
  have hwf := (Config.wellFormed_iff _).1 hc
  have tx : ∀ pin color n, ∀ g ∈ txSegments c pin color n, 1 ≤ g.cycles := by
    intro pin color n
    induction n with
    | zero => intro g hg; cases hg
    | succ n ih =>
      intro g hg
      simp only [txSegments, List.mem_append, bitSegments, List.mem_cons, List.mem_nil_iff, or_false] at hg
      rcases hg with (rfl | rfl) | h
      · simp only; split <;> omega
      · simp only; split <;> omega
      · exact ih g h
  cases i with
  | tx pin color => exact ⟨tx pin color 24, by simp [segments, txSegments, bitSegments]⟩
  | breset pin => exact ⟨by simp [segments]; omega, by simp [segments]⟩
  | setlvl pin lvl => exact ⟨by simp [segments], by simp [segments]⟩
  | delay n => exact ⟨by simp [segments], by simp [segments]⟩
  | reserved000 x => cases hi
  | reserved101 x => cases hi
  | reserved110 x => cases hi
  | reserved111 x => cases hi

/-- The level in the last cycle of segments is the level they leave. -/
theorem levelAt_last (l : List Segment) (hpos : ∀ g ∈ l, 1 ≤ g.cycles) (hne : l ≠ []) (q : Nat) (b : Bool) :
    levelAt l (totalCycles l - 1) q b = levelAfter l q b := by
  induction l generalizing b with
  | nil => exact absurd rfl hne
  | cons g l ih =>
    have hg := hpos g (by simp)
    cases l with
    | nil => simp [levelAt, totalCycles, levelAfter]
    | cons g2 l =>
      have hg2 := hpos g2 (by simp)
      have hle : ¬ totalCycles (g :: g2 :: l) - 1 < g.cycles := by simp only [totalCycles]; omega
      have htail : totalCycles (g :: g2 :: l) - 1 - g.cycles = totalCycles (g2 :: l) - 1 := by
        simp only [totalCycles]; omega
      rw [levelAt, if_neg hle, htail, ih (fun x hx => hpos x (by simp [hx])) (by simp)]
      rfl

/-- The bit periods of a colour in closed form (41_led_protocol.md R101), for any number of its low bits. -/
theorem levelAt_txSegments {c : Config} (hc : c.wellFormed = true) (pin : Pin) (color : Color) (n t : Nat) (b : Bool)
    (ht : t < n * c.tBit) : levelAt (txSegments c pin color n) t pin.toNat b =
      decide (t % c.tBit < if color.getLsbD (n - 1 - t / c.tBit) then c.tLong else c.tShort) := by
  have hwf := (Config.wellFormed_iff _).1 hc
  have hB : 0 < c.tBit := by unfold Config.tBit; omega
  induction n generalizing t b with
  | zero => simp at ht
  | succ n ih =>
    rw [txSegments, levelAt_append, bitSegments_total]
    split
    · rename_i h
      rw [Nat.mod_eq_of_lt h, Nat.div_eq_of_lt h]
      simp only [bitSegments, levelAt, if_true, Nat.add_sub_cancel, Nat.sub_zero]
      split
      · by_cases hh : t < c.tLong <;> simp [hh]
      · by_cases hh : t < c.tShort <;> simp [hh]
    · rename_i h
      rw [Nat.succ_mul] at ht
      rw [ih _ _ (by omega)]
      obtain ⟨d, rfl⟩ : ∃ d, t = d + c.tBit := ⟨t - c.tBit, by omega⟩
      rw [Nat.add_sub_cancel, Nat.add_mod_right, Nat.add_div_right _ hB,
        show n - 1 - d / c.tBit = n + 1 - 1 - (d / c.tBit).succ by omega]

end Sys2Proof.Machine
end

