-- ==== Sys2Proof/Tests/Slice0.lean ====
section
/-!
SUPPORT. The model's own tests. Expected values come from the spec: words from 30_encoding.md R62 to R73 and
95_test_vectors.md X1 to X21, effects from 40_sequencer.md R85, R87, R90, R93 and the vectors named at each test. The second half
shows, for every obligation that has hypotheses, states and operands that meet them.
-/
namespace Sys2Proof.Tests

open Sys2Proof.Machine

/-! Small states. -/

/-- The reset state on `P_T` with a word in PEND and the host's slots. -/
def waiting (w : Option Word) (host : List (Option Access)) : State := { State.reset with pend := w, host := host }

/-- The reset state with an active command, a word in PEND, latches and the host's slots. -/
def running (a : Active) (out : BitVec 32) (w : Option Word) (host : List (Option Access)) : State :=
  { State.reset with act := some a, out := out, pend := w, host := host }

/-- `P_T` with eight pins (95_test_vectors.md V9). -/
def eightPins : Config := { Config.testProfile with nPins := 8 }

/-- The profile of 95_test_vectors.md V33. -/
def profile33 : Config := { Config.testProfile with nPins := 8, tShort := 2, tLong := 3, tReset := 4 }

/-- The state one slot on, or the state itself where the run stops. -/
def next (s : State) : State :=
  match step s with
  | .next t => t
  | .fault _ => s
  | .refused _ => s

/-- The state that `exec` answers. -/
def effectOf (i : Instr) (s : State) : State :=
  match exec i s with
  | .next t => t
  | .fault _ => s
  | .refused _ => s

/-- TX 5, 0xFF0000 in the first cycle of bit 23 (P_T: two high cycles). -/
def txActive : Active := ⟨.tx 5 0xFF0000 23 .high, 2⟩

/-- A DELAY with three cycles left. -/
def delayActive : Active := ⟨.delay, 3⟩

/-! Decoding (30_encoding.md), each word written out from the spec's encoding. -/

theorem test_decode_tx : decodeWord 0b001_00101_111111110000000000000000#32 = .tx 5 0xFF0000 ∧
    decodeWord 0x2500FF00#32 = .tx 5 0x00FF00 ∧ decodeWord 0x20000000#32 = .tx 0 0 ∧
    decodeWord 0x3FFFFFFF#32 = .tx 31 0xFFFFFF := by decide

theorem test_decode_breset : decodeWord 0b010_00101_000000000000000000000000#32 = .breset 5 ∧
    decodeWord 0x45ABCDEF#32 = .breset 5 ∧ decodeWord 0x5F000000#32 = .breset 31 := by decide

theorem test_decode_setlvl : decodeWord 0b011_00011_00000000000000000000000_1#32 = .setlvl 3 true ∧
    decodeWord 0x63FFFFFE#32 = .setlvl 3 false ∧ decodeWord 0x7F000001#32 = .setlvl 31 true := by decide

theorem test_decode_delay : decodeWord 0b100_00000_000000000000000001100100#32 = .delay 100 ∧
    decodeWord 0x80000000#32 = .delay 0 ∧ decodeWord 0x9F000004#32 = .delay 4 ∧
    decodeWord 0x80FFFFFF#32 = .delay 0xFFFFFF := by decide

theorem test_decode_reserved : decodeWord 0x00000000#32 = .reserved000 0 ∧
    decodeWord 0x1FFFFFFF#32 = .reserved000 0x1FFFFFFF ∧ decodeWord 0xA0000000#32 = .reserved101 0 ∧
    decodeWord 0xBFFFFFFF#32 = .reserved101 0x1FFFFFFF ∧ decodeWord 0xC5FF0000#32 = .reserved110 0x05FF0000 ∧
    decodeWord 0xE0000000#32 = .reserved111 0 ∧ decodeWord 0xFFFFFFFF#32 = .reserved111 0x1FFFFFFF := by decide

/-- Lane 0 of a word holds its bits 7 to 0 (20_memory.md R47); a part of a word is no command (R60). -/
theorem test_decode_bytes : decodeBytes [0x00, 0x00, 0xFF, 0x25, 0x77] = .ok (.tx 5 0xFF0000, [0x77]) ∧
    decodeBytes [] = .error (.truncatedWord 0) ∧ decodeBytes [0x25] = .error (.truncatedWord 1) ∧
    decodeBytes [0x00, 0x25] = .error (.truncatedWord 2) ∧
    decodeBytes [0x00, 0x00, 0x25] = .error (.truncatedWord 3) := by decide

theorem test_decode_table_word : decodeTableWord 32 0x25FF0000 = some (.tx 5 0xFF0000) ∧
    decodeTableWord 8 0xFF = some (.reserved000 0xFF) ∧ decodeTableWord 40 0x25FF0000 = none := by decide

/-! WellFormed: an ill-formed term for each check (00_scope.md R9, 70_reset_and_hazards.md R172, 30_encoding.md R67). -/

theorem test_wellFormed_accepts : Config.testProfile.wellFormed = true ∧ profile33.wellFormed = true ∧
    (Instr.tx 7 0).wellFormed eightPins = true ∧ (Instr.delay 0).wellFormed eightPins = true := by decide

theorem test_wellFormed_refuses_config :
    ({ Config.testProfile with tShort := 0 } : Config).wellFormed = false ∧
    ({ Config.testProfile with tShort := 2 } : Config).wellFormed = false ∧
    ({ Config.testProfile with tLong := 16777215 } : Config).wellFormed = false ∧
    ({ Config.testProfile with tReset := 0 } : Config).wellFormed = false ∧
    ({ Config.testProfile with tReset := 16777216 } : Config).wellFormed = false ∧
    ({ Config.testProfile with nPins := 0 } : Config).wellFormed = false ∧
    ({ Config.testProfile with nPins := 33 } : Config).wellFormed = false ∧
    ({ Config.testProfile with fClk := 0 } : Config).wellFormed = false ∧
    ({ Config.testProfile with base := 0x80 } : Config).wellFormed = false := by decide

theorem test_wellFormed_refuses_pin : (Instr.tx 8 0).wellFormed eightPins = false ∧
    (Instr.breset 8).wellFormed eightPins = false ∧ (Instr.setlvl 31 true).wellFormed eightPins = false := by decide

theorem test_wellFormed_refuses_reserved : (Instr.reserved000 0).wellFormed Config.testProfile = false ∧
    (Instr.reserved101 0).wellFormed Config.testProfile = false ∧
    (Instr.reserved110 0).wellFormed Config.testProfile = false ∧
    (Instr.reserved111 0).wellFormed Config.testProfile = false := by decide

/-! One step of each command. -/

/-- V5: bit 23 is 1, so the high phase is `T_LONG = 2` cycles. -/
theorem test_tx_starts : (effectOf (.tx 5 0xFF0000) State.reset).act = some txActive ∧
    (effectOf (.tx 5 0xFF0000) State.reset).out = 0x20 := by decide

/-- V9: pin 9 of 8 names no latch, is recorded, and the TX runs all the same. -/
theorem test_tx_pin_out_of_range :
    (effectOf (.tx 9 0x123456) (State.resetWith eightPins)).out = 0 ∧
    (effectOf (.tx 9 0x123456) (State.resetWith eightPins)).faults = ⟨true, false, false⟩ ∧
    (effectOf (.tx 9 0x123456) (State.resetWith eightPins)).act = some ⟨.tx 9 0x123456 23 .high, 1⟩ := by decide

/-- R87: the high phase ends and the low phase of the same bit begins; a low phase ends and the next bit begins. -/
theorem test_tx_advances :
    (next (running ⟨.tx 5 0xFF0000 23 .high, 1⟩ 0x20 none [])).act = some ⟨.tx 5 0xFF0000 23 .low, 1⟩ ∧
    (next (running ⟨.tx 5 0xFF0000 23 .high, 1⟩ 0x20 none [])).out = 0 ∧
    (next (running ⟨.tx 5 0xFF0000 16 .low, 1⟩ 0 none [])).act = some ⟨.tx 5 0xFF0000 15 .high, 1⟩ ∧
    (next (running ⟨.tx 5 0xFF0000 16 .low, 1⟩ 0 none [])).out = 0x20 := by decide

/-- V12: a BRESET pulls a high pin low and keeps the others. -/
theorem test_breset_starts : (effectOf (.breset 5) (running delayActive 0x28 none [])).act = some ⟨.breset 5, 10⟩ ∧
    (effectOf (.breset 5) (running delayActive 0x28 none [])).out = 0x08 := by decide

/-- R171: `T_RESET = 4 < T_RES_MIN = 10` is recorded. -/
theorem test_breset_too_short :
    (effectOf (.breset 0) (State.resetWith profile33)).faults = ⟨false, false, true⟩ := by decide

/-- V14, V16. -/
theorem test_setlvl_starts : (effectOf (.setlvl 31 true) State.reset).out = 0x80000000 ∧
    (effectOf (.setlvl 31 true) State.reset).act = some ⟨.setlvl 31, 1⟩ ∧
    (effectOf (.setlvl 31 false) (running delayActive 0x80000001 none [])).out = 1 := by decide

/-- V17 to V21: `DELAY 0` and `DELAY 1` last one cycle; no latch changes. -/
theorem test_delay_starts : (effectOf (.delay 0) State.reset).act = some ⟨.delay, 1⟩ ∧
    (effectOf (.delay 1) State.reset).act = some ⟨.delay, 1⟩ ∧
    (effectOf (.delay 0xFFFFFF) State.reset).act = some ⟨.delay, 0xFFFFFF⟩ ∧
    (effectOf (.delay 4) (running delayActive 0x80000000 none [])).out = 0x80000000 := by decide

/-- R93: ILL rises and nothing else changes. -/
theorem test_reserved_sets_ill :
    effectOf (.reserved000 0) State.reset = { State.reset with ill := true } ∧
    effectOf (.reserved101 0) State.reset = { State.reset with ill := true } ∧
    effectOf (.reserved110 0) State.reset = { State.reset with ill := true } ∧
    effectOf (.reserved111 0) State.reset = { State.reset with ill := true } := by decide

/-! The edge and the bus. -/

/-- V22, cycle 1: the pending TX enters ACT and the word written in the same cycle takes its place in PEND. -/
theorem test_edge_starts_and_accepts :
    (next (waiting (some 0x25FF0000) [cmdSlot Config.testProfile 0x45000000])).act = some txActive ∧
    (next (waiting (some 0x25FF0000) [cmdSlot Config.testProfile 0x45000000])).pend = some 0x45000000 ∧
    (waiting (some 0x25FF0000) [cmdSlot Config.testProfile 0x45000000]).responseWith false = some .completed := by decide

/-- V22, cycle 2: PEND is full and ACT is busy, so a legal write stalls; V27: a reserved word does not. -/
theorem test_edge_stalls :
    (running txActive 0x20 (some 0x45000000) [cmdSlot Config.testProfile 0x80000001]).responseWith false
      = some .stalled ∧
    (next (running txActive 0x20 (some 0x45000000) [cmdSlot Config.testProfile 0x80000001])).host
      = [cmdSlot Config.testProfile 0x80000001] ∧
    (running txActive 0x20 (some 0x45000000) [cmdSlot Config.testProfile 0]).responseWith false
      = some .completed ∧
    (next (running txActive 0x20 (some 0x45000000) [cmdSlot Config.testProfile 0])).ill = true := by decide

/-- P4, cycles 1 and 3, and V28: STATUS reads ILL and PENDING; only bit 2 of a write clears ILL. -/
theorem test_status :
    ({ State.reset with ill := true } : State).respond (.read 4 4) = .data 4 ∧
    ({ waiting (some 0x63000001) [] with ill := true } : State).respond (.read 4 4) = .data 6 ∧
    (next { State.reset with ill := true, host := [some (.write 4 4 3)] }).ill = true ∧
    (next { State.reset with ill := true, host := [some (.write 4 4 4)] }).ill = false := by decide

/-- V30, and a fetch as a read (R42). -/
theorem test_reads : State.reset.respond (.read 0x0C 4) = .data 1 ∧ State.reset.respond (.read 0x10 4) = .data 2 ∧
    State.reset.respond (.read 0x14 4) = .data 10 ∧ State.reset.respond (.read 0x18 4) = .data 32 ∧
    State.reset.respond (.read 0x00 4) = .data 0 ∧ State.reset.respond (.fetch 0xFC 4) = .data 0 ∧
    (running delayActive 0x80000008 none []).respond (.read 0x08 4) = .data 0x80000008 := by decide

/-- V29. -/
theorem test_bus_errors : State.reset.respond (.write 0 1 0x25) = .busError 0 ∧
    State.reset.respond (.write 0 2 0x2500) = .busError 0 ∧ State.reset.respond (.read 4 2) = .busError 4 ∧
    State.reset.respond (.read 6 4) = .busError 6 ∧ State.reset.respond (.write 1 4 0x25000000) = .busError 1 := by
  decide

/-- V31: RST in a TX drops it and takes every latch low; V32: a write in that cycle is lost. -/
theorem test_rst :
    next { running txActive 0x20 (some 0x45000000) [cmdSlot Config.testProfile 0x65000001] with
      platform := [.edge true 0xFFFFFFFF], ill := true } = State.reset := by decide

/-- R170: a TX on a pin that is no output is recorded, and the latch trace goes on. -/
theorem test_pad_undriven :
    (next { running txActive 0x20 none [] with platform := [.edge false 0xFFFFFFDF] }).faults = ⟨false, true, false⟩ ∧
    (next { running txActive 0x20 none [] with platform := [.edge false 0xFFFFFFDF] }).out = 0x20 := by decide

/-- The host's probes: the word is executed by the very next step. -/
theorem test_withFetchWord :
    (next (State.reset.withFetchWord 32 0x25FF0000)).act = some txActive ∧
    (next (State.reset.withFetchWord 32 0xE0000000)).ill = true := by decide

/-- 95_test_vectors.md section 2's assembler examples. -/
theorem test_assembles :
    assemble [.pulse 7 1 4, .frame 5 [0xFF0000], .nop] =
      .ok [.setlvl 7 true, .delay 3, .tx 5 0xFF0000, .breset 5, .delay 1] ∧
    (AsmLine.tx 32 0).commands = .error (.pinRange 32) ∧
    (AsmLine.pulse 7 1 0).commands = .error .emptyPulse := by decide

theorem test_parses :
    AsmText.parse "  TX 5, 0xFF0000   ; green".toList = .ok [.tx 5 0xFF0000] ∧
    AsmText.parse "SETLVL 0x1f, HIGH".toList = .ok [.setlvl 31 1] ∧
    AsmText.parse "; comment".toList = .ok [] ∧ AsmText.parse "TX 5".toList = .error .badLine := by decide

/-! Witnesses: for every obligation with hypotheses, states and operands that meet them, each clause at a boundary. -/

/-- A state with empty slots ahead runs on for any number of cycles. -/
theorem runs_on {s : State} (h : s.platform = []) (k : Nat) : s.runsFor k := fun j _ =>
  ⟨BitVec.allOnes 32, by unfold State.slotAfter; rw [h, List.drop_nil]⟩

/-- The registers' invariant of a state with ACT empty and every latch low. -/
theorem waiting_registers {w : Option Word} {host : List (Option Access)}
    (h : ∀ v, w = some v → (decodeWord v).legal = true) : RegistersInv (waiting w host) :=
  ⟨fun p _ => by simp [State.level, waiting, State.reset, State.resetWith], h, fun _ ha => by cases ha⟩

theorem waiting_none (host : List (Option Access)) : RegistersInv (waiting none host) :=
  waiting_registers fun _ h => by cases h

/-- The registers' invariant of `P_T`'s state in the first cycle of TX 5, 0xFF0000. -/
theorem tx_registers {w : Option Word} {host : List (Option Access)}
    (h : ∀ v, w = some v → (decodeWord v).legal = true) : RegistersInv (running txActive 0x20 w host) :=
  ⟨fun p hp => by
      have hp' : 32 ≤ p := hp
      simp [State.level, running, BitVec.getLsbD_of_ge _ p hp'],
    h, fun a ha => by
      cases ha
      refine ⟨by decide, by decide, ?_, fun _ => ?_⟩
      · show (2#24).toNat ≤ (hdur Config.testProfile (colorBit 0xFF0000 23)).toNat
        decide
      · show (0x20#32).getLsbD 5 = true
        decide⟩

/-- The registers' invariant of a state in a DELAY with three cycles left. -/
theorem delay_registers {w : Option Word} {host : List (Option Access)}
    (h : ∀ v, w = some v → (decodeWord v).legal = true) : RegistersInv (running delayActive 0 w host) :=
  ⟨fun p _ => by simp [State.level, running], h, fun a ha => by cases ha; exact ⟨by decide, trivial⟩⟩

/-- The premise of the waveform rules, for each command. -/
theorem starting {v : Word} (host : List (Option Access)) (h : (decodeWord v).legal = true) :
    Starting (waiting (some v) host) (decodeWord v) :=
  ⟨rfl, waiting_registers (by rintro _ ⟨⟩; exact h), rfl, v, rfl, rfl⟩

/-- The same from a high pin 5. -/
theorem starting_high : Starting { waiting (some 0x25000000) [] with out := 0x20 } (.tx 5 0) :=
  ⟨rfl, ⟨fun p hp => by
      have hp' : 32 ≤ p := hp
      simp [State.level, BitVec.getLsbD_of_ge _ p hp'], by rintro _ ⟨⟩; decide, fun _ ha => by cases ha⟩,
    rfl, 0x25000000, rfl, by decide⟩

/-- The state before the first RST. -/
def dark (host : List (Option Access)) : State := (waiting none host).powerUp

theorem witness_OperandsAreTheFieldsOfTheWord :
    (0x20000000#32).toNat / 2 ^ 29 = 1 ∧ (0x3FFFFFFF#32).toNat / 2 ^ 29 = 1 ∧ (0x45ABCDEF#32).toNat / 2 ^ 29 = 2 ∧
    (0x7FFFFFFF#32).toNat / 2 ^ 29 = 3 ∧ (0x9F000004#32).toNat / 2 ^ 29 = 4 ∧ (0x1FFFFFFF#32).toNat / 2 ^ 29 = 0 ∧
    5 ≤ (0xA0000000#32).toNat / 2 ^ 29 ∧ 5 ≤ (0xFFFFFFFF#32).toNat / 2 ^ 29 := by decide

theorem witness_ReservedFieldsDoNotMatter : State.reset.free = true ∧
    ((0x45000000#32).toNat / 2 ^ 29 = (0x45FFFFFF#32).toNat / 2 ^ 29 ∧ (0x45000000#32).toNat / 2 ^ 29 = 2 ∧
      (0x45000000#32).toNat / 2 ^ 24 = (0x45FFFFFF#32).toNat / 2 ^ 24) ∧
    ((0x63000001#32).toNat / 2 ^ 29 = (0x63FFFFFF#32).toNat / 2 ^ 29 ∧ (0x63000001#32).toNat / 2 ^ 29 = 3 ∧
      (0x63000001#32).toNat / 2 ^ 24 = (0x63FFFFFF#32).toNat / 2 ^ 24 ∧
      (0x63000001#32).toNat % 2 = (0x63FFFFFF#32).toNat % 2) ∧
    ((0x80000004#32).toNat / 2 ^ 29 = (0x9F000004#32).toNat / 2 ^ 29 ∧ (0x80000004#32).toNat / 2 ^ 29 = 4 ∧
      (0x80000004#32).toNat % 2 ^ 24 = (0x9F000004#32).toNat % 2 ^ 24) := by decide

/-- The clauses of the statements about TX, BRESET, SETLVL: the last pin that exists and the first that does not, another
latch, and a `T_RESET` that misses `T_RES_MIN` by one. -/
theorem witness_CommandsEnterAct : (7#5).toNat < (State.resetWith eightPins).cfg.nPins ∧
    (State.resetWith eightPins).cfg.nPins ≤ (8#5).toNat ∧ 31 ≠ (8#5).toNat ∧
    State.reset.cfg.tResMin ≤ State.reset.cfg.tReset ∧
    (State.resetWith { eightPins with tReset := 9 }).cfg.tReset < (State.resetWith eightPins).cfg.tResMin := by decide

/-- TxEntersActWithBit23High, BresetEntersActWithThePinLow, SetlvlEntersActWithThePinAtTheLevel, and the same with ACT and
the latches in use. -/
theorem witness_CommandsEnterActOverAnyState : (5#5).toNat < (running delayActive 0xFF none []).cfg.nPins ∧
    (running delayActive 0xFF none []).level 4 = true ∧ 4 ≠ (5#5).toNat := by decide

theorem witness_StepRunsTheDecodedCommand :
    ((waiting (some 0x25FF0000) []).live = true ∧
      (waiting (some 0x25FF0000) []).slot = .edge false (BitVec.allOnes 32) ∧
      (waiting (some 0x25FF0000) []).free = true ∧ (waiting (some 0x25FF0000) []).pend = some 0x25FF0000 ∧
      decodeBytes [laneOf 0x25FF0000 0, laneOf 0x25FF0000 1, laneOf 0x25FF0000 2, laneOf 0x25FF0000 3]
        = .ok (.tx 5 0xFF0000, []) ∧ (Instr.tx 5 0xFF0000).legal = true) ∧
    ((waiting none [cmdSlot Config.testProfile 0xFFFFFFFF]).access = some (.write 0 4 0xFFFFFFFF) ∧
      (waiting none [cmdSlot Config.testProfile 0xFFFFFFFF]).live = true ∧
      decodeBytes [laneOf 0xFFFFFFFF 0, laneOf 0xFFFFFFFF 1, laneOf 0xFFFFFFFF 2, laneOf 0xFFFFFFFF 3]
        = .ok (.reserved111 0x1FFFFFFF, []) ∧ (Instr.reserved111 0x1FFFFFFF).legal = false) := by decide

theorem witness_StepRunsTheDecodedCommand_sequence :
    ∃ t, (waiting none [cmdSlot Config.testProfile 0xFFFFFFFF]).sequence = .next t := ⟨_, rfl⟩

theorem witness_StepAdvancesOrRetiresOtherwise :
    ((running txActive 0x20 none []).live = true ∧ (running txActive 0x20 none []).act = some txActive ∧
      txActive.finishing = false ∧ (running txActive 0x20 none []).slot = .edge false (BitVec.allOnes 32)) ∧
    ((running ⟨.delay, 1⟩ 0 none []).live = true ∧ (running ⟨.delay, 1⟩ 0 none []).free = true ∧
      (running ⟨.delay, 1⟩ 0 none []).pend = none) := by decide

theorem witness_IllFormedParametersHaveNoMachine :
    (State.resetWith { Config.testProfile with tLong := 16777215 }).cfg.wellFormed = false ∧
    ({ Config.testProfile with tLong := 16777214 } : Config).wellFormed = true := by decide

theorem witness_CycleIsSubMicrosecondAboveOneMegahertz :
    0 < ({ Config.testProfile with fClk := 1000001 } : Config).fClk ∧
    1000000 < ({ Config.testProfile with fClk := 1000001 } : Config).fClk ∧
    0 < ({ Config.testProfile with fClk := 1000000 } : Config).fClk := by decide

/-- Reset edges: from a running TX, with each kind of access. -/
def resetting (x : Access) : State :=
  { running txActive 0x20 (some 0x45000000) [some x] with platform := [.edge true 0xFFFFFFFF] }

theorem witness_RstTakesTheResetState : (resetting (.read 4 4)).cfg.wellFormed = true ∧
    (resetting (.read 4 4)).slot = .edge true 0xFFFFFFFF := by decide

theorem witness_ResetCycleAnswersAndDiscards : (resetting (.read 4 4)).cfg.wellFormed = true ∧
    (resetting (.read 4 4)).slot = .edge true 0xFFFFFFFF ∧
    ((resetting (.read 0xFE 4)).access = some (.read 0xFE 4) ∧ (Access.read 0xFE 4).answered = false) ∧
    ((resetting (.read 0xFC 4)).access = some (.read 0xFC 4) ∧ (Access.read 0xFC 4).answered = true) ∧
    ((resetting (.fetch 0 4)).access = some (.fetch 0 4) ∧ (Access.fetch 0 4).answered = true) ∧
    ((resetting (.write 0 4 0x65000001)).access = some (.write 0 4 0x65000001) ∧
      (Access.write 0 4 0x65000001).answered = true) := by decide

theorem witness_NothingIsObservableBeforeTheFirstRst : (dark [some (.read 4 4)]).cfg.wellFormed = true ∧
    (dark [some (.read 4 4)]).wasReset = false ∧ (dark [some (.read 4 4)]).access = some (.read 4 4) ∧
    (dark [some (.read 4 4)]).slot = .edge false (BitVec.allOnes 32) ∧ (dark []).cfg.wellFormed = true ∧
    (dark []).wasReset = false ∧ (dark []).access = none ∧
    ({ dark [] with platform := [.edge true 0] } : State).slot = .edge true 0 := by decide

theorem witness_StoppedClockHoldsEveryRegister :
    ({ running txActive 0x20 none [] with platform := [.clockStopped] } : State).cfg.wellFormed = true ∧
    ({ running txActive 0x20 none [] with platform := [.clockStopped] } : State).slot = .clockStopped ∧
    ({ running txActive 0x20 none [] with platform := [.powerLost] } : State).slot = .powerLost ∧
    ({ running txActive 0x20 none [] with platform := [.clockStopped] } : State).wasReset = true := by decide

theorem witness_ObservationsAnswerWhereNoFaultHolds :
    (running txActive 0x20 none []).observePad 5 = .ok true ∧ (running txActive 0x20 none []).observeLatch = .ok () ∧
    (resetting (.read 4 4)).wasReset = true ∧ (resetting (.read 4 4)).slot = .edge true 0xFFFFFFFF ∧
    (running txActive 0x20 none []).slot = .edge false (BitVec.allOnes 32) := ⟨rfl, rfl, rfl, rfl, rfl⟩

/-- R162: a read of STATUS in a reset cycle is observed as 0, and a full queue stalls no CMD write there. -/
theorem test_observe_reset_cycle : (resetting (.read 4 4)).observeHost = .ok (some (.data 0)) ∧
    (resetting (.write 0 4 0x65000001)).observeHost = .ok (some .completed) := ⟨rfl, rfl⟩

/-- The host's access in a live, clocked cycle: what the bus statements assume. -/
def presenting (x : Access) : State := running txActive 0x20 (some 0x45000000) [some x]

theorem witness_OtherAccessesErrAndChangeNothing : (presenting (.write 0 1 0x25)).live = true ∧
    (presenting (.write 0 1 0x25)).clocked = true ∧
    ((presenting (.write 0 1 0x25)).access = some (.write 0 1 0x25) ∧ (Access.write 0 1 0x25).size ≠ 4) ∧
    ((presenting (.read 0xFF 4)).access = some (.read 0xFF 4) ∧ (Access.read 0xFF 4).addr % 4 ≠ 0) := by decide

theorem witness_ReservedOffsetsReadZeroAndIgnoreWrites : 0x1C ≤ 0x1C % 256 ∧ 0x1C % 4 = 0 ∧ 0x1C ≤ 0xFC % 256 ∧
    0xFC % 4 = 0 ∧ (presenting (.read 0x1C 4)).live = true ∧ (presenting (.read 0x1C 4)).clocked = true ∧
    (presenting (.read 0x1C 4)).access = some (.read 0x1C 4) ∧
    (presenting (.write 0xFC 4 0xFFFFFFFF)).access = some (.write 0xFC 4 0xFFFFFFFF) := by decide

theorem witness_ReadsCompleteAndHaveNoEffect : 0x04 % 4 = 0 ∧ (presenting (.read 4 4)).live = true ∧
    (presenting (.read 4 4)).clocked = true ∧ (presenting (.read 4 4)).access = some (.read 4 4) ∧
    (dark []).out = State.reset.out ∧ (dark []).act = State.reset.act ∧ (dark []).ill = State.reset.ill ∧
    (dark []).pend = State.reset.pend ∧ (dark []).cfg = State.reset.cfg ∧ 0x300 % 256 = 0 ∧ 0x300 % 4 = 0 ∧
    (presenting (.fetch 8 4)).access = some (.fetch 8 4) ∧
    (presenting (.read 0 4)).pending = (waiting (some 0x80000001) []).pending := by decide

theorem witness_InformationRegistersShowLatchesAndParameters :
    (presenting (.write 0x08 4 5)).cfg.wellFormed = true ∧ (presenting (.write 0x08 4 5)).live = true ∧
    (presenting (.write 0x08 4 5)).clocked = true ∧ (presenting (.write 0x08 4 5)).access = some (.write 0x08 4 5) ∧
    (presenting (.write 0x18 4 5)).access = some (.write 0x18 4 5) := by decide

theorem witness_StatusShowsActivePendingIll : (presenting (.write 4 4 4)).live = true ∧
    (presenting (.write 4 4 4)).slot = .edge false (BitVec.allOnes 32) ∧
    (presenting (.write 4 4 4)).access = some (.write 4 4 4) ∧ (4#32).getLsbD 2 = true ∧
    (presenting (.write 4 4 0xFFFFFFFB)).access = some (.write 4 4 0xFFFFFFFB) ∧ (0xFFFFFFFB#32).getLsbD 2 = false ∧
    (presenting (.write 4 4 4)).busy = true ∧ State.reset.idle = true := by decide

theorem witness_StatusShowsActivePendingIll_step : ∃ t, step (presenting (.write 4 4 4)).silentNow = .next t :=
  ⟨_, rfl⟩

theorem witness_StatusBitsChangeOnlyAsStated :
    (∃ s t, s.wasReset = true ∧ step s = .next t ∧ t.wasReset = true ∧ s.ill = false ∧ t.ill = true) ∧
    (∃ s t, s.wasReset = true ∧ step s = .next t ∧ t.wasReset = true ∧ s.ill = true ∧ t.ill = false) ∧
    (∃ s t, s.wasReset = true ∧ step s = .next t ∧ t.wasReset = true ∧ s.slot = .edge true 0 ∧ s.ill = true ∧
      t.ill = false) :=
  ⟨⟨presenting (.write 0 4 0), _, rfl, rfl, rfl, rfl, rfl⟩,
   ⟨{ presenting (.write 4 4 4) with ill := true }, _, rfl, rfl, rfl, rfl, rfl⟩,
   ⟨{ State.reset with ill := true, platform := [.edge true 0] }, _, rfl, rfl, rfl, rfl, rfl, rfl⟩⟩

theorem witness_ReservedWordIsDiscardedAndSetsIll : (presenting (.write 0 4 0)).live = true ∧
    (presenting (.write 0 4 0)).slot = .edge false (BitVec.allOnes 32) ∧
    (presenting (.write 0 4 0x1FFFFFFF)).access = some (.write 0 4 0x1FFFFFFF) ∧ (0x1FFFFFFF#32).toNat / 2 ^ 29 = 0 ∧
    (presenting (.write 0 4 0xA0000000)).access = some (.write 0 4 0xA0000000) ∧
    5 ≤ (0xA0000000#32).toNat / 2 ^ 29 := by decide

theorem witness_ReservedWordIsDiscardedAndSetsIll_step : ∃ t, step (presenting (.write 0 4 0)).silentNow = .next t :=
  ⟨_, rfl⟩

/-- PEND empty, and PEND full with ACT in its last cycle. -/
theorem witness_AcceptedWordIsPendingAsWritten :
    (∃ s addr v, s.live = true ∧ RegistersInv s ∧ s.slot = .edge false (BitVec.allOnes 32) ∧
      s.access = some (.write addr 4 v) ∧ addr % 256 = 0 ∧ (decodeWord v).legal = true ∧ s.pend = none) ∧
    (∃ s addr v, s.live = true ∧ RegistersInv s ∧ s.slot = .edge false (BitVec.allOnes 32) ∧
      s.access = some (.write addr 4 v) ∧ addr % 256 = 0 ∧ (decodeWord v).legal = true ∧ s.pend ≠ none ∧
      s.free = true) :=
  ⟨⟨running txActive 0x20 none [some (.write 0 4 0x45ABCDEF)], 0, 0x45ABCDEF, rfl,
      tx_registers (by rintro _ ⟨⟩), rfl, rfl, rfl, by decide, rfl⟩,
   ⟨waiting (some 0x25FF0000) [some (.write 0 4 0x45ABCDEF)], 0, 0x45ABCDEF, rfl,
      waiting_registers (by rintro _ ⟨⟩; decide), rfl, rfl, rfl, by decide, by decide, rfl⟩⟩

/-- A DELAY with three cycles left, PEND full: the write stalls in this cycle and the next, and is accepted in the third. -/
theorem witness_LegalWordStallsWhileTheQueueIsFull : ∃ s addr v, s.live = true ∧ RegistersInv s ∧
    s.slot = .edge false (BitVec.allOnes 32) ∧ s.access = some (.write addr 4 v) ∧ addr % 256 = 0 ∧
    (decodeWord v).legal = true ∧ s.pend ≠ none ∧ s.free = false ∧ s.remaining = 3 ∧ s.runsFor s.remaining :=
  ⟨running delayActive 0 (some 0x45000000) [some (.write 0 4 0x80000001)], 0, 0x80000001, rfl,
    delay_registers (by rintro _ ⟨⟩; decide), rfl, rfl, rfl, by decide, by decide, rfl, rfl, runs_on rfl _⟩

theorem witness_StallLastsUntilTheActiveCommandFinishes : ∃ s addr v, s.live = true ∧ RegistersInv s ∧
    s.access = some (.write addr 4 v) ∧ addr % 256 = 0 ∧ (decodeWord v).legal = true ∧ s.pend ≠ none ∧
    s.free = false ∧ 1 + 1 < s.remaining ∧ s.runsFor s.remaining :=
  ⟨running delayActive 0 (some 0x45000000) [some (.write 0 4 0x80000001)], 0, 0x80000001, rfl,
    delay_registers (by rintro _ ⟨⟩; decide), rfl, rfl, by decide, by decide, rfl, by decide, runs_on rfl _⟩

/-- PhasesOfABitAddUpToTheBitPeriod, DurationsOfTheCommands, PrimitivesReproduceATxBit: parameters, each command. -/
theorem witness_Durations : Config.testProfile.wellFormed = true ∧ profile33.wellFormed = true ∧
    (Instr.tx 31 0xFFFFFF).legal = true ∧ (Instr.breset 0).legal = true ∧ (Instr.setlvl 0 true).legal = true ∧
    (Instr.delay 0xFFFFFF).legal = true := by decide

/-- Each of the four commands enters ACT, with as many cycles ahead as it takes; a first and a last cycle of each. -/
theorem witness_CommandPlaysItsSegments :
    (Starting (waiting (some 0x25FF0000) []) (.tx 5 0xFF0000) ∧ 71 < duration Config.testProfile (.tx 5 0xFF0000)) ∧
    (Starting (waiting (some 0x45ABCDEF) []) (.breset 5) ∧ 9 < duration Config.testProfile (.breset 5)) ∧
    (Starting (waiting (some 0x7F000001) []) (.setlvl 31 true) ∧ 0 < duration Config.testProfile (.setlvl 31 true)) ∧
    (Starting (waiting (some 0x80000000) []) (.delay 0) ∧ 0 < duration Config.testProfile (.delay 0)) ∧
    ∀ w k, (waiting w []).runsFor k :=
  ⟨⟨starting (v := 0x25FF0000) [] (by decide), by decide⟩, ⟨starting (v := 0x45ABCDEF) [] (by decide), by decide⟩,
   ⟨starting (v := 0x7F000001) [] (by decide), by decide⟩, ⟨starting (v := 0x80000000) [] (by decide), by decide⟩,
   fun _ k => runs_on rfl k⟩

/-- A 0 bit's first cycle and first low cycle on `P_T`, in the first and in the last bit period. -/
theorem witness_TxFollowsTheClosedForm : Starting (waiting (some 0x25000000) []) (.tx 5 0) ∧
    (5#5).toNat < (waiting (some 0x25000000) []).cfg.nPins ∧ 71 < 24 * Config.testProfile.tBit ∧
    0 % Config.testProfile.tBit < Config.testProfile.tShort ∧
    Config.testProfile.tShort ≤ 71 % Config.testProfile.tBit ∧ (waiting (some 0x25000000) []).runsFor 72 :=
  ⟨starting (v := 0x25000000) [] (by decide), by decide, by decide, by decide, by decide, runs_on rfl _⟩

theorem witness_TxMakesFortyEightTransitionsFromLow :
    (Starting (waiting (some 0x25000000) []) (.tx 5 0) ∧ (waiting (some 0x25000000) []).level 5 = false ∧
      (waiting (some 0x25000000) []).runsFor 72) ∧
    (Starting { waiting (some 0x25000000) [] with out := 0x20 } (.tx 5 0) ∧
      ({ waiting (some 0x25000000) [] with out := 0x20 } : State).level 5 = true ∧
      ({ waiting (some 0x25000000) [] with out := 0x20 } : State).runsFor 72) ∧
    (5#5).toNat < Config.testProfile.nPins ∧ 24 * Config.testProfile.tBit = 72 :=
  ⟨⟨starting (v := 0x25000000) [] (by decide), by decide, runs_on rfl _⟩,
   ⟨starting_high, by decide, runs_on rfl _⟩, by decide, by decide⟩

/-- V13: `TX 5, 0xFF0000` (last bit 0) and `TX 5, 0xFFFFFF` (last bit 1), each with a BRESET 5 behind it. -/
theorem witness_LowTimeOfATxAndItsBreset :
    (Starting (waiting (some 0x25FF0000) [cmdSlot Config.testProfile (encode (.breset 5))]) (.tx 5 0xFF0000) ∧
      2 = (if (0xFF0000#24).getLsbD 0 then Config.testProfile.tShort else Config.testProfile.tLong)) ∧
    (Starting (waiting (some 0x25FFFFFF) [cmdSlot Config.testProfile (encode (.breset 5))]) (.tx 5 0xFFFFFF) ∧
      1 = (if (0xFFFFFF#24).getLsbD 0 then Config.testProfile.tShort else Config.testProfile.tLong)) ∧
    (5#5).toNat < Config.testProfile.nPins ∧
    ∀ w k, (waiting w [cmdSlot Config.testProfile (encode (.breset 5))]).runsFor k :=
  ⟨⟨starting (v := 0x25FF0000) _ (by decide), by decide⟩, ⟨starting (v := 0x25FFFFFF) _ (by decide), by decide⟩,
   by decide, fun _ k => runs_on rfl k⟩

/-- From idle (`n = 1`), behind a pending command, and behind an active one (`n = 2`, R94). -/
theorem witness_CommandStartsAtTheLaterOfTwoCyclesAndTheBacklog :
    (RegistersInv (waiting none [cmdSlot Config.testProfile 0x80000004]) ∧
      (waiting none [cmdSlot Config.testProfile 0x80000004]).live = true ∧
      (waiting none [cmdSlot Config.testProfile 0x80000004]).accepted = [0x80000004] ∧
      1 + 1 = max 2 (waiting none [cmdSlot Config.testProfile 0x80000004]).backlog) ∧
    (RegistersInv (waiting (some 0x45000000) [cmdSlot Config.testProfile 0x80000004]) ∧
      (waiting (some 0x45000000) [cmdSlot Config.testProfile 0x80000004]).accepted = [0x80000004] ∧
      10 + 1 = max 2 (waiting (some 0x45000000) [cmdSlot Config.testProfile 0x80000004]).backlog) ∧
    (RegistersInv (running delayActive 0 none [cmdSlot Config.testProfile 0x80000004]) ∧
      (running delayActive 0 none [cmdSlot Config.testProfile 0x80000004]).accepted = [0x80000004] ∧
      2 + 1 = max 2 (running delayActive 0 none [cmdSlot Config.testProfile 0x80000004]).backlog) ∧
    (waiting none [cmdSlot Config.testProfile 0x80000004]).runsFor 2 ∧
    (waiting (some 0x45000000) [cmdSlot Config.testProfile 0x80000004]).runsFor 11 ∧
    (running delayActive 0 none [cmdSlot Config.testProfile 0x80000004]).runsFor 3 :=
  ⟨⟨waiting_none _, by decide, by decide, by decide⟩,
   ⟨waiting_registers (by rintro _ ⟨⟩; decide), by decide, by decide⟩,
   ⟨delay_registers (by rintro _ ⟨⟩), by decide, by decide⟩, runs_on rfl _, runs_on rfl _, runs_on rfl _⟩

/-- V23's last write in time, for a DELAY of two cycles: written two cycles after it, with a STATUS read between. -/
theorem witness_NoUnderrunWhenTheNextWriteComesInTime : ∃ s w v slot between rest n, s.live = true ∧ RegistersInv s ∧
    s.accepted = [w] ∧ s.host = slot :: (between ++ cmdSlot s.cfg v :: rest) ∧
    (∀ x ∈ between, ∀ u, cmdWord x = some u → (decodeWord u).legal = false) ∧ (decodeWord v).legal = true ∧
    between.length + 1 = duration s.cfg (decodeWord w) ∧ n + 1 = max 2 s.backlog ∧
    s.runsFor (n + duration s.cfg (decodeWord w) + 1) :=
  ⟨waiting none [cmdSlot Config.testProfile 0x80000002, some (.read 4 4), cmdSlot Config.testProfile 0x45000000],
    0x80000002, 0x45000000, cmdSlot Config.testProfile 0x80000002, [some (.read 4 4)], [], 1, by decide, waiting_none _,
    by decide, rfl, by simp [cmdWord], by decide, by decide, by decide, runs_on rfl _⟩

theorem witness_CommandsStartOnceInAcceptanceOrder : ∃ s, s.live = true ∧ RegistersInv s ∧ s.runsFor 2 ∧
    s.pend.toList ++ s.collect State.accepted 2 = [0x65000001, 0x65000000] :=
  ⟨waiting (some 0x65000001) [cmdSlot Config.testProfile 0x65000000], rfl,
    waiting_registers (by rintro _ ⟨⟩; decide), runs_on rfl _, by decide⟩

theorem witness_HostCannotDisturbTheActiveCommand : ∃ s, s.live = true ∧ RegistersInv s ∧ 71 < s.remaining ∧
    s.runsFor 71 :=
  ⟨running txActive 0x20 none [cmdSlot Config.testProfile 0xE0000000], rfl, tx_registers (by rintro _ ⟨⟩), by decide,
    runs_on rfl _⟩

theorem witness_IdleLpeHoldsEveryLatch : ∃ s : State, s.live = true ∧ s.idle = true ∧ (∀ x ∈ s.host, cmdWord x = none) ∧
    s.runsFor 100 :=
  ⟨waiting none [some (.read 4 4), none, some (.write 4 4 4)], rfl, rfl, by decide, runs_on rfl _⟩

theorem witness_StatusTellsWhenTheLastCommandHasEnded : ∃ s, s.live = true ∧ RegistersInv s ∧ s.pend = none ∧
    (∀ x ∈ s.host, cmdWord x = none) ∧ s.remaining = 72 ∧ s.runsFor 72 :=
  ⟨running txActive 0x20 none [some (.read 4 4)], rfl, tx_registers (by rintro _ ⟨⟩), rfl,
    by decide, by decide, runs_on rfl _⟩

/-- P1: `TX 5, 0xFF0000` and `BRESET 5`, 82 cycles. -/
theorem witness_BackToBackProgramPlaysWithoutGaps : ∃ s, Starting s (.tx 5 0xFF0000) ∧
    s.host = [Instr.breset 5].map (fun i => cmdSlot s.cfg (encode i)) ∧
    (∀ i ∈ [Instr.breset 5], i.legal = true) ∧
    82 = totalCycles (programSegments s.cfg [.tx 5 0xFF0000, .breset 5]) ∧ s.runsFor 83 :=
  ⟨waiting (some 0x25FF0000) [cmdSlot Config.testProfile (encode (.breset 5))],
    starting (v := 0x25FF0000) _ (by decide), rfl, by decide, by decide, runs_on rfl _⟩

/-- StepKeepsTheRunInvariant and RunsStopOnlyAtAnAccessBeforeTheFirstRst: a running state, and one before the first RST. -/
theorem witness_StepKeepsTheRunInvariant : (∃ s t, Inv s ∧ s.wasReset = true ∧ step s = .next t) ∧
    Inv (dark [some (.read 4 4)]) ∧ Inv (dark []) :=
  ⟨⟨running txActive 0x20 (some 0x45000000) [cmdSlot Config.testProfile 0x80000001], _,
      ⟨by decide, fun _ => tx_registers (by rintro _ ⟨⟩; decide)⟩, rfl, rfl⟩,
   ⟨by decide, fun h => by cases h⟩, ⟨by decide, fun h => by cases h⟩⟩

theorem witness_ResetMeetsTheRunInvariant : profile33.wellFormed = true := by decide

theorem witness_ParametersNeverChange : (∃ s t, step s = .next t) ∧ (∃ i s t, exec i s = .next t) :=
  ⟨⟨State.reset, _, rfl⟩, ⟨.breset 5, State.reset, _, rfl⟩⟩

/-- A latch changes at RST, at the start of a command and in a TX; and the same slot with two hosts. -/
theorem witness_OnlyTheSequencerWritesLatches :
    (∃ s t, step s = .next t ∧ s.slot = .edge true 0 ∧ t.level 5 ≠ s.level 5) ∧
    (∃ s t, step s = .next t ∧ s.started = [0x65000001] ∧ t.level 5 ≠ s.level 5) ∧
    (∃ s t, step s = .next t ∧ s.started = [] ∧ t.level 5 ≠ s.level 5 ∧
      ∃ t', step { s with host := [some (.write 0 4 0)] } = .next t') :=
  ⟨⟨{ running delayActive 0x20 none [] with platform := [.edge true 0] }, _, rfl, rfl, by decide⟩,
   ⟨waiting (some 0x65000001) [], _, rfl, by decide, by decide⟩,
   ⟨running ⟨.tx 5 0xFF0000 23 .high, 1⟩ 0x20 none [], _, rfl, by decide, by decide, _, rfl⟩⟩

theorem witness_FaultsAreRecordedWhenTheirConditionHolds :
    (∃ s t, step s = .next t ∧ s.faults.pinOutOfRange = false ∧ t.faults.pinOutOfRange = true) ∧
    (∃ s t, step s = .next t ∧ s.faults.resetTooShort = false ∧ t.faults.resetTooShort = true) ∧
    (∃ s t, step s = .next t ∧ s.faults.pinNotOutput = false ∧ t.faults.pinNotOutput = true) :=
  ⟨⟨{ State.resetWith eightPins with pend := some 0x28123456 }, _, rfl, rfl, by decide⟩,
   ⟨{ State.resetWith { Config.testProfile with tReset := 9 } with pend := some 0x45000000 }, _, rfl, rfl, by decide⟩,
   ⟨{ running txActive 0x20 none [] with platform := [.edge false 0xFFFFFFDF] }, _, rfl, rfl, by decide⟩⟩

/-- The shortest and the longest pulse, on the first and the last pin, and its first and last cycle. -/
theorem witness_PulseHoldsItsPinForItsCycles : 0 < 32 ∧ 31 < 32 ∧ 0 < 2 ∧ 1 < 2 ∧ 1 ≤ 1 ∧ 1 ≤ 2 ^ 24 ∧
    2 ^ 24 - 1 < 2 ^ 24 ∧ 0 < 1 := by decide

/-- On `P_T` the short phase has one cycle, so its DELAY is left out; on V33's profile both DELAYs stand. -/
theorem witness_PrimitivesReproduceATxBit : Config.testProfile.wellFormed = true ∧ ¬ 2 ≤ Config.testProfile.tShort ∧
    profile33.wellFormed = true ∧ 2 ≤ profile33.tShort ∧ 0 < Config.testProfile.tShort + Config.testProfile.tLong := by
  decide

theorem witness_AssemblerEmitsTheWordOrRejects : (31 < 32 ∧ 0xFFFFFF ≤ 0xFFFFFF) ∧ ¬ (32 < 32 ∧ 0 ≤ 0xFFFFFF) ∧
    ¬ (0 < 32 ∧ 0x1000000 ≤ 0xFFFFFF) ∧ ¬ 32 < 32 ∧ (31 < 32 ∧ 1 < 2) ∧ ¬ (0 < 32 ∧ 2 < 2) ∧
    ¬ 0x1000000 ≤ 0xFFFFFF := by decide

/-- The edges of the ranges: pin 31 and 32, level 1 and 2, one, two and the most cycles, the widest colour, no colour. -/
theorem witness_PseudoCommandsExpandInOrder : 31 < 32 ∧ ¬ 32 < 32 ∧ (31 < 32 ∧ 1 < 2 ∧ 1 ≤ 1 ∧ 1 ≤ 2 ^ 24) ∧
    (0 < 32 ∧ 0 < 2 ∧ 1 ≤ 2 ^ 24 ∧ 2 ^ 24 ≤ 2 ^ 24) ∧ ¬ (0 < 32 ∧ 0 < 2 ∧ 1 ≤ 0 ∧ 0 ≤ 2 ^ 24) ∧
    (31 < 32 ∧ ∀ c ∈ [0xFFFFFF, 0], c ≤ 0xFFFFFF) ∧ ¬ (0 < 32 ∧ ∀ c ∈ [0x1000000], c ≤ 0xFFFFFF) ∧
    (∀ line ∈ [AsmLine.nop, .nop], line.commands = .ok ((fun _ => [Instr.delay 1]) line)) ∧
    (∃ line ∈ [AsmLine.nop, .pulse 0 0 0], ∃ e, line.commands = .error e) := by
  refine ⟨by decide, by decide, by decide, by decide, by decide, by decide, by decide, fun line h => ?_,
    .pulse 0 0 0, by simp, .emptyPulse, rfl⟩
  have hn : line = .nop := by simpa using h
  subst hn
  rfl

end Sys2Proof.Tests
end

section
/-!
PROOFS. The scope of the model (00_scope.md): the unit of time (R10), the parameters (R9), the observations (R13).
-/
namespace Sys2Proof.Machine

/-! The unit of time (R10). -/

/-- R10: one cycle lasts the reciprocal of `F_CLK`. -/
theorem seconds_one (c : Config) : c.seconds 1 = 1 / (c.fClk : Rat) := by
  simp [Config.seconds]

/-- R10: a count's seconds times `F_CLK` are the count. -/
theorem seconds_mul_fClk {c : Config} (h : 0 < c.fClk) (cycles : Nat) :
    c.seconds cycles * (c.fClk : Rat) = (cycles : Rat) :=
  div_mul_cancel₀ _ (Nat.cast_ne_zero.2 h.ne')

/-- A cycle is shorter than the `n`-th part of a second exactly when `F_CLK` is above `n` Hz. -/
theorem seconds_one_lt_iff {c : Config} (h : 0 < c.fClk) {n : Nat} (hn : 0 < n) :
    c.seconds 1 < 1 / (n : Rat) ↔ n < c.fClk := by
  rw [seconds_one, one_div_lt_one_div (Nat.cast_pos.2 h) (Nat.cast_pos.2 hn), Nat.cast_lt]

/-- Settles O14, by `seconds_one_lt_iff` at a million parts of a second. -/
theorem cycleIsSubMicrosecondAboveOneMegahertz : Obligations.CycleIsSubMicrosecondAboveOneMegahertz := by
  unfold Obligations.CycleIsSubMicrosecondAboveOneMegahertz
  intro c h
  exact ⟨seconds_mul_fClk h, by exact_mod_cast seconds_one_lt_iff h (n := 1000000) (by decide)⟩

/-! The parameters (R9). -/

/-- R9: a state whose parameters are ill-formed takes no step. -/
theorem step_of_illFormed {s : State} (h : s.cfg.wellFormed = false) : step s = .refused .illFormedConfig := by
  simp [step, State.passSlot, h]

/-- Settles O13, by `Config.wellFormed_iff` and `step_of_illFormed`. -/
theorem illFormedParametersHaveNoMachine : Obligations.IllFormedParametersHaveNoMachine := by
  unfold Obligations.IllFormedParametersHaveNoMachine
  refine ⟨fun c => ?_, fun s => step_of_illFormed⟩
  rw [Config.wellFormed_iff]
  simp only [and_assoc, Nat.reducePow, Nat.reduceSub]

/-! The observations (R13, R141). -/

namespace State

/-- A pin claim answers exactly in a known slot with no PinOutOfRange recorded, and then the latch's level. -/
theorem observePin_ok_iff (s : State) (p : Nat) (b : Bool) :
    s.observePin p = .ok b ↔ s.known = true ∧ s.faults.pinOutOfRange = false ∧ s.level p = b := by
  unfold observePin
  cases s.known with
  | false => simp
  | true => cases s.faults.pinOutOfRange <;> simp

/-- A claim of latched frames answers exactly in a known slot with no fault recorded. -/
theorem observeLatch_ok_iff (s : State) : s.observeLatch = .ok () ↔ s.known = true ∧ s.faultFree = true := by
  unfold observeLatch faultFree
  cases s.known with
  | false => simp
  | true => obtain ⟨_ | _, _ | _, _ | _⟩ := s.faults <;> simp

end State

/-- Settles O19, one observation after the other: each answers exactly where it is known and none of its faults is
recorded. -/
theorem observationsAnswerWhereNoFaultHolds : Obligations.ObservationsAnswerWhereNoFaultHolds := by
  unfold Obligations.ObservationsAnswerWhereNoFaultHolds
  intro s p b
  refine ⟨?pin, ?pad, ?latch, fun rst oe => State.observeHost_edge⟩
  case pin => rw [State.observePin_ok_iff, State.known_iff, and_assoc]
  case pad => rw [State.observePad_ok_iff, State.padDriven_iff]
  case latch => rw [State.observeLatch_ok_iff, State.known_iff, and_assoc]

end Sys2Proof.Machine
end

section
/-!
PROOFS. The registers of the LPE (10_state.md): what R24 to R27 ask of them in every state of a run, the parameters
(R33), the information registers (R30), the status bits (R22, R28) and the latches (R24).
-/
namespace Sys2Proof.Machine

/-! The run invariant (R24, R25, R27). -/

/-- The registers' invariant looks at the parameters, the latches, PEND and ACT alone. -/
theorem RegistersInv.congr {s t : State} (hc : t.cfg = s.cfg) (hl : ∀ q, t.level q = s.level q) (hp : t.pend = s.pend)
    (ha : t.act = s.act) (h : RegistersInv s) : RegistersInv t where
  noLatchAbove q hq := by rw [hl]; exact h.noLatchAbove q (hc ▸ hq)
  pendLegal w hw := h.pendLegal w (hp ▸ hw)
  active a hs := (h.active a (ha ▸ hs)).congr hc hl

/-- An LPE with every latch low and no command, as R34 leaves it, meets the registers' invariant. -/
theorem RegistersInv.of_reset {s : State} (hl : ∀ q, s.level q = false) (hp : s.pend = none) (ha : s.act = none) :
    RegistersInv s where
  noLatchAbove q _ := hl q
  pendLegal w hw := by rw [hp] at hw; cases hw
  active a hs := by rw [ha] at hs; cases hs

/-- R33: a step keeps the parameters. -/
theorem step_cfg {s t : State} (h : step s = .next t) : t.cfg = s.cfg := by
  obtain ⟨-, ⟨oe, -, rfl⟩ | ⟨oe, u, -, -, hu, rfl⟩ | ⟨oe, -, -, -, rfl⟩ | ⟨-, rfl⟩ | ⟨-, rfl⟩⟩ := step_cases h
  · simp
  · simp [(State.sequence_frame hu).1]
  · simp
  · rfl
  · rfl

/-- Settles O43, by what a step can do: RST leaves the reset registers, an edge of a run is `edgeNext_registers`, a
stopped clock keeps the registers, and the other steps leave an LPE that RST has not reset. -/
theorem stepKeepsTheRunInvariant : Obligations.StepKeepsTheRunInvariant := by
  unfold Obligations.StepKeepsTheRunInvariant
  intro s t hi h
  obtain ⟨hc, hi⟩ := hi
  refine ⟨by rwa [step_cfg h], fun ht => ?_⟩
  obtain ⟨-, ⟨oe, -, rfl⟩ | ⟨oe, u, -, hw, hu, rfl⟩ | ⟨oe, -, hw, -, rfl⟩ | ⟨-, rfl⟩ | ⟨-, rfl⟩⟩ := step_cases h
  case inl => exact .of_reset (by simp) (by simp) (by simp)
  case inr.inl =>
    have hu' : u = s.sequenceNext := by
      rw [State.sequence_eq (hi hw).pend] at hu
      cases hu; rfl
    exact hu' ▸ edgeNext_registers hc (hi hw) oe
  case inr.inr.inl => simp [hw] at ht
  case inr.inr.inr.inl => exact .congr (s := s) rfl (fun _ => rfl) rfl rfl (hi ht)
  case inr.inr.inr.inr => cases ht

/-- R34: the reset state of an LPE with well-formed parameters meets the run invariant. -/
theorem resetWith_inv {c : Config} (h : c.wellFormed = true) : Inv (State.resetWith c) :=
  ⟨h, fun _ => .of_reset (fun q => by simp [State.level, State.resetWith]) rfl rfl⟩

/-- Settles O44, by `resetWith_inv`; the model's own parameters are the test profile's (log 3). -/
theorem resetMeetsTheRunInvariant : Obligations.ResetMeetsTheRunInvariant := by
  unfold Obligations.ResetMeetsTheRunInvariant
  exact ⟨resetWith_inv (by decide), fun _ => resetWith_inv⟩

/-! The parameters (R33). -/

/-- Settles O46, by `step_cfg` and, for a command, `effect_cfg`. -/
theorem parametersNeverChange : Obligations.ParametersNeverChange := by
  unfold Obligations.ParametersNeverChange
  refine ⟨fun s t => step_cfg, fun i s t h => ?_⟩
  rw [exec_eq_effect] at h
  cases h
  exact effect_cfg i s

/-! What an answered access is answered, and what it writes (R42, R45, R58). -/

/-- R42: what is answered is a 32-bit access at an offset that is a multiple of 4. -/
theorem Access.answered_iff (x : Access) : x.answered = true ↔ x.size = 4 ∧ x.addr % 256 % 4 = 0 := by
  unfold answered
  rw [Bool.and_eq_true, decide_eq_true_iff, decide_eq_true_iff, offset]

/-- R42: a 32-bit access at an aligned address is answered. -/
theorem Access.answered_of_aligned {x : Access} (hn : x.size = 4) (ha : x.addr % 4 = 0) : x.answered = true :=
  x.answered_iff.2 ⟨hn, by omega⟩

/-- The value that an answered write at a given aligned offset presents is that of a 32-bit write there. -/
theorem write_at_eq_some_iff {k : Nat} (hk : k % 4 = 0) (addr n : Nat) (w v : Word) :
    (if (Access.write addr n w).answered && decide (addr % 256 = k) then some w else none) = some v ↔
      ∃ a, some (Access.write addr n w) = some (.write a 4 v) ∧ a % 256 = k := by
  have hcond : ((Access.write addr n w).answered && decide (addr % 256 = k)) = true ↔ n = 4 ∧ addr % 256 = k := by
    rw [Bool.and_eq_true, decide_eq_true_iff, Access.answered_iff]
    show (n = 4 ∧ addr % 256 % 4 = 0) ∧ addr % 256 = k ↔ _
    omega
  rw [Option.ite_none_right_eq_some, hcond]
  constructor
  · rintro ⟨⟨rfl, ha⟩, hv⟩
    cases hv
    exact ⟨addr, rfl, ha⟩
  · rintro ⟨a, hx, ha⟩
    cases hx
    exact ⟨⟨rfl, ha⟩, rfl⟩

/-- The word that an access presents to CMD is that of a 32-bit write at offset 0. -/
theorem cmdWord_eq_some_iff (x : Option Access) (v : Word) :
    cmdWord x = some v ↔ ∃ addr, x = some (.write addr 4 v) ∧ addr % 256 = 0 := by
  match x with
  | none => simp [cmdWord]
  | some (.read _ _) => simp [cmdWord]
  | some (.fetch _ _) => simp [cmdWord]
  | some (.write addr n w) => exact write_at_eq_some_iff rfl addr n w v

/-- The value that an access writes to STATUS is that of a 32-bit write at offset 4. -/
theorem statusWrite_eq_some_iff (x : Option Access) (v : Word) :
    statusWrite x = some v ↔ ∃ addr, x = some (.write addr 4 v) ∧ addr % 256 = 4 := by
  match x with
  | none => simp [statusWrite]
  | some (.read _ _) => simp [statusWrite]
  | some (.fetch _ _) => simp [statusWrite]
  | some (.write addr n w) => exact write_at_eq_some_iff rfl addr n w v

namespace State

/-- R44: a 32-bit read at an aligned address answers the register at its offset. -/
theorem respond_read (s : State) {addr : Nat} (ha : addr % 4 = 0) :
    s.respond (.read addr 4) = .data (s.readReg (addr % 256)) :=
  if_pos (Access.answered_of_aligned (x := .read addr 4) rfl ha)

/-- R45: a 32-bit write at an aligned address other than CMD's completes. -/
theorem respond_write (s : State) {addr : Nat} (v : Word) (ha : addr % 4 = 0) (h0 : addr % 256 ≠ 0) :
    s.respond (.write addr 4 v) = .completed := by
  unfold respond
  rw [if_pos (Access.answered_of_aligned (x := .write addr 4 v) rfl ha)]
  exact if_neg h0

/-- R162: no access stalls in a reset cycle. -/
theorem respondInReset_ne_stalled (x : Access) : respondInReset x ≠ .stalled := by
  unfold respondInReset
  cases x.answered <;> cases x <;> simp

/-- An access that the registers do not stall is not stalled in its cycle, whatever RST is. -/
theorem responseWith_ne_stalled {s : State} {x : Access} (hx : s.access = some x) (h : s.respond x ≠ .stalled)
    (r : Bool) : s.responseWith r ≠ some .stalled := by
  unfold responseWith
  cases r <;> simp [hx, h, respondInReset_ne_stalled]

end State

/-- R43, R45: an aligned 32-bit write other than to CMD and STATUS might as well not be presented. -/
theorem step_of_write_ignored {s : State} {addr : Nat} {v : Word} (hl : s.live = true) (hk : s.clocked = true)
    (hx : s.access = some (.write addr 4 v)) (ha : addr % 4 = 0) (h0 : addr % 256 ≠ 0) (h4 : addr % 256 ≠ 4) :
    step s = step s.silentNow := by
  refine step_of_quiet hl hk (by simp [hx, cmdWord, h0]) (by simp [hx, statusWrite, h4])
    (State.responseWith_ne_stalled hx ?_)
  simp [s.respond_write v ha h0]

/-! The information registers (R30). -/

namespace State

/-- R30: bit `p` of OUTLVL is latch `p`, and 0 where there is none. -/
theorem readReg_outlvl_getLsbD (s : State) (p : Nat) :
    (s.readReg 0x08).getLsbD p = (decide (p < s.cfg.nPins) && s.level p) := by
  have mask : (BitVec.ofNat 32 (2 ^ s.cfg.nPins - 1)).getLsbD p = (decide (p < 32) && decide (p < s.cfg.nPins)) := by
    rw [BitVec.getLsbD_ofNat, Nat.testBit_two_pow_sub_one]
  show (s.out &&& BitVec.ofNat 32 (2 ^ s.cfg.nPins - 1)).getLsbD p = _
  rw [BitVec.getLsbD_and, mask, level]
  by_cases hp : p < 32
  · simp [hp, Bool.and_comm]
  · simp [BitVec.getLsbD_of_ge s.out p (by omega)]

end State

/-- A duration of a well-formed profile as an information register shows it. -/
theorem setWidth_toCount_toNat {n : Nat} (h : n ≤ 16777215) : (BitVec.setWidth 32 (toCount n)).toNat = n := by
  rw [BitVec.toNat_setWidth, toCount_toNat h]
  omega

/-- Settles O23, field by field: the latches by `readReg_outlvl_getLsbD`, the parameters by their ranges (R9), and a
write by `step_of_write_ignored`. -/
theorem informationRegistersShowLatchesAndParameters : Obligations.InformationRegistersShowLatchesAndParameters := by
  unfold Obligations.InformationRegistersShowLatchesAndParameters
  intro s hc
  obtain ⟨-, hsl, hbit, ⟨-, hrst⟩, ⟨-, hpins⟩, -, -⟩ := (Config.wellFormed_iff _).1 hc
  refine ⟨s.readReg_outlvl_getLsbD, setWidth_toCount_toNat (by omega), setWidth_toCount_toNat (by omega),
    setWidth_toCount_toNat hrst, ?npins, fun addr => s.respond_read, ?reset, ?standing, fun addr v ho => ?write⟩
  case npins =>
    show (BitVec.setWidth 32 (BitVec.ofNat 6 s.cfg.nPins)).toNat = _
    rw [BitVec.toNat_setWidth, BitVec.toNat_ofNat]
    omega
  case reset => exact BitVec.zero_and
  case standing => rintro off (rfl | rfl | rfl | rfl) <;> rfl
  case write =>
    exact ⟨s.respond_write v (by omega) (by omega), fun hl hk hx =>
      step_of_write_ignored hl hk hx (by omega) (by omega) (by omega)⟩

/-! STATUS (R22, R28). -/

namespace State

/-- R28: ACTIVE, PENDING and ILL are bits 0, 1 and 2 of STATUS, and the other bits are 0. -/
theorem readReg_status_getLsbD (s : State) (k : Nat) : (s.readReg 0x04).getLsbD k =
    (decide (k = 0) && s.act.isSome || decide (k = 1) && s.pend.isSome || decide (k = 2) && s.ill) := by
  show s.statusWord.getLsbD k = _
  simp only [statusWord, active, pending]
  match k with
  | 0 => cases s.act.isSome <;> cases s.pend.isSome <;> cases s.ill <;> rfl
  | 1 => cases s.act.isSome <;> cases s.pend.isSome <;> cases s.ill <;> rfl
  | 2 => cases s.act.isSome <;> cases s.pend.isSome <;> cases s.ill <;> rfl
  | k + 3 => simp

/-- R22, R28: ACTIVE, PENDING and ILL as a read of STATUS shows them. -/
theorem readReg_status_fields (s : State) : (s.readReg 0x04).getLsbD 0 = s.act.isSome ∧
    (s.readReg 0x04).getLsbD 1 = s.pend.isSome ∧ (s.readReg 0x04).getLsbD 2 = s.ill := by
  simp only [readReg_status_getLsbD]
  simp

/-- R34: STATUS reads 0 after RST. -/
theorem readReg_status_of_reset (s : State) : s.resetRegisters.readReg 0x04 = 0 := by
  show s.resetRegisters.statusWord = 0
  simp [statusWord, active, pending]

/-- R28: the LPE is busy exactly while `STATUS[1:0]` is not 0. -/
theorem busy_iff (s : State) : s.busy = true ↔ (s.readReg 0x04).toNat % 4 ≠ 0 := by
  show _ ↔ s.statusWord.toNat % 4 ≠ 0
  simp only [busy, statusWord]
  cases s.active <;> cases s.pending <;> cases s.ill <;> decide

/-- Clearing ILL before or after the inputs move on is the same. -/
theorem endCycle_clearIll (s : State) (r : Bool) (oe : BitVec 32) (t : State) :
    s.endCycle r oe t.clearIll = (s.endCycle r oe t).clearIll := by
  unfold endCycle notePad
  split <;> rfl

end State

/-- R45: an edge of a run at which the host writes STATUS is a silent one, but that bit 2 of the value clears ILL. -/
theorem step_status_write {s : State} {oe : BitVec 32} {addr : Nat} {v : Word} (hl : s.live = true)
    (hs : s.slot = .edge false oe) (hx : s.access = some (.write addr 4 v)) (h4 : addr % 256 = 4) : step s =
      match step s.silentNow with
      | .next t => .next (if v.getLsbD 2 then t.clearIll else t)
      | .fault r => .fault r
      | .refused r => .refused r := by
  obtain ⟨hc, hw⟩ := (State.live_iff s).1 hl
  have hcmd : cmdWord s.access = none := by simp [hx, cmdWord, h4]
  have hstatus : statusWrite s.access = some v := (statusWrite_eq_some_iff _ v).2 ⟨addr, hx, h4⟩
  have hhost : s.hostAfter false = s.host.tail := State.hostAfter_completed
    (State.responseWith_ne_stalled hx (by simp [s.respond_write v (addr := addr) (by omega) (by omega)]) false)
  rw [step_access hc hw hs, step_silentNow hc hw hs]
  cases s.sequence with
  | next t =>
    simp only [State.accessNext, hcmd, hstatus, State.endCycle_silentNow hhost]
    cases v.getLsbD 2
    · rfl
    · exact congrArg Host.Outcome.next (s.endCycle_clearIll false oe t)
  | fault r => rfl
  | refused r => rfl

/-- Settles O24: the fields by `readReg_status_fields`, busy by `busy_iff`, a write by `step_status_write`. -/
theorem statusShowsActivePendingIll : Obligations.StatusShowsActivePendingIll := by
  unfold Obligations.StatusShowsActivePendingIll
  intro s
  refine ⟨?fields, s.busy_iff, ?idle, s.readReg_status_of_reset,
    fun oe addr v hl hs hx h4 => ⟨?response, ?stays, ?clears⟩⟩
  case fields =>
    obtain ⟨hactive, hpending, hill⟩ := s.readReg_status_fields
    refine ⟨hactive, hpending, hill, fun k hk => ?_⟩
    have h0 : k ≠ 0 := by omega
    have h1 : k ≠ 1 := by omega
    have h2 : k ≠ 2 := by omega
    simp [State.readReg_status_getLsbD, h0, h1, h2]
  case idle => rw [State.idle, Bool.not_eq_true', ← Bool.not_eq_true, s.busy_iff, not_not]
  case response =>
    unfold State.responseWith
    rw [hx]
    exact congrArg some (s.respond_write v (by omega) (by omega))
  case stays =>
    intro hv
    rw [step_status_write hl hs hx h4, hv]
    cases step s.silentNow <;> rfl
  case clears =>
    intro hv t ht
    rw [step_status_write hl hs hx h4, hv, ht]
    rfl

/-- R22, R45, R93: what the host's access of a running edge does to ILL. -/
theorem accessNext_ill_iff (s : State) (x : Option Access) (t : State) : (s.accessNext x t).ill = true ↔
    (∃ addr v, x = some (.write addr 4 v) ∧ addr % 256 = 0 ∧ (decodeWord v).legal = false) ∨
    (t.ill = true ∧ ¬ ∃ addr v, x = some (.write addr 4 v) ∧ addr % 256 = 4 ∧ v.getLsbD 2 = true) := by
  have hcmd : (∃ addr v, x = some (.write addr 4 v) ∧ addr % 256 = 0 ∧ (decodeWord v).legal = false) ↔
      ∃ v, cmdWord x = some v ∧ (decodeWord v).legal = false := by
    rw [exists_comm]
    simp only [cmdWord_eq_some_iff, ← exists_and_right, and_assoc]
  have hstatus : (∃ addr v, x = some (.write addr 4 v) ∧ addr % 256 = 4 ∧ v.getLsbD 2 = true) ↔
      ∃ v, statusWrite x = some v ∧ v.getLsbD 2 = true := by
    rw [exists_comm]
    simp only [statusWrite_eq_some_iff, ← exists_and_right, and_assoc]
  rw [hcmd, hstatus, State.accessNext_ill]
  cases hc : cmdWord x with
  | some w =>
    obtain ⟨addr, rfl, h0⟩ := (cmdWord_eq_some_iff x w).1 hc
    have hnot : statusWrite (some (.write addr 4 w)) = none := by simp [statusWrite, h0]
    simp [hnot, or_comm]
  | none =>
    cases statusWrite x <;> simp

/-- Settles O25: the views by `readReg_status_fields`; ILL by what a step can do, at an edge of a run by
`accessNext_ill_iff`, because the sequencer leaves ILL alone. -/
theorem statusBitsChangeOnlyAsStated : Obligations.StatusBitsChangeOnlyAsStated := by
  unfold Obligations.StatusBitsChangeOnlyAsStated
  intro s t hw h ht
  refine ⟨t.readReg_status_fields, ?_⟩
  obtain ⟨-, ⟨oe, hs, rfl⟩ | ⟨oe, u, hs, -, hu, rfl⟩ | ⟨oe, -, hn, -, -⟩ | ⟨hs, rfl⟩ | ⟨-, rfl⟩⟩ := step_cases h
  case inl => simp [hs]
  case inr.inl =>
    obtain ⟨-, -, -, -, hill⟩ := State.sequence_frame hu
    rw [State.endCycle_ill, accessNext_ill_iff, hill]
    simp [hs]
  case inr.inr.inl => rw [hw] at hn; cases hn
  case inr.inr.inr.inl => simp [hs]
  case inr.inr.inr.inr => cases ht

/-! The latches (R24). -/

/-- R24: a latch write changes no other latch, and none that does not exist. -/
theorem setLevel_level_changes {s : State} {p : Pin} {v : Bool} {q : Nat}
    (h : (s.setLevel p v).level q ≠ s.level q) : q < s.cfg.nPins ∧ p.toNat = q := by
  rw [State.level_setLevel] at h
  split at h
  · rename_i hp
    exact ⟨hp.1 ▸ hp.2, hp.1⟩
  · exact absurd rfl h

/-- R87: `advance` writes no latch but the one an active TX names. -/
theorem advance_level_changes {s : State} {a : Active} {q : Nat} (h : (s.advance a).level q ≠ s.level q) :
    q < s.cfg.nPins ∧ ∃ p color bit phase cnt, a = ⟨.tx p color bit phase, cnt⟩ ∧ p.toNat = q := by
  obtain ⟨kind, cnt⟩ := a
  unfold State.advance at h
  split at h
  · exact absurd rfl h
  · cases kind with
    | tx p color bit phase =>
      have hq : q < s.cfg.nPins ∧ p.toNat = q := by
        cases phase <;> exact setLevel_level_changes (s := s.load _ _) h
      exact ⟨hq.1, p, color, bit, phase, cnt, rfl, hq.2⟩
    | breset p => exact absurd rfl h
    | setlvl p => exact absurd rfl h
    | delay => exact absurd rfl h

/-- R85: a command that takes effect writes no latch but its own. -/
theorem effect_level_changes {s : State} {i : Instr} {q : Nat} (h : (effect i s).level q ≠ s.level q) :
    q < s.cfg.nPins ∧ ∃ p, i.drivenPin = some p ∧ p.toNat = q := by
  rw [effect_level] at h
  cases hp : i.drivenPin with
  | none => simp [hp] at h
  | some p =>
    simp only [hp] at h
    split at h
    · rename_i hq
      exact ⟨hq.1 ▸ hq.2, p, rfl, hq.1⟩
    · exact absurd rfl h

/-- R152: a step with the clock stopped. -/
theorem step_clockStopped {s : State} (hc : s.cfg.wellFormed = true) (hs : s.slot = .clockStopped) :
    step s = .next { s with platform := s.platform.tail } := by
  simp [step, State.passSlot, hc, hs]

/-- R152: a step in which power is lost. -/
theorem step_powerLost {s : State} (hc : s.cfg.wellFormed = true) (hs : s.slot = .powerLost) :
    step s = .next { s with platform := s.platform.tail, wasReset := false } := by
  simp [step, State.passSlot, hc, hs]

/-- R24: the latches after a step do not depend on what the host presents. -/
theorem step_out_withHost {s t t' : State} {other : List (Option Access)} (h : step s = .next t)
    (h' : step { s with host := other } = .next t') : t'.out = t.out := by
  obtain ⟨hc, ⟨oe, hs, rfl⟩ | ⟨oe, u, hs, hw, hu, rfl⟩ | ⟨oe, hs, hw, -, rfl⟩ | ⟨hs, rfl⟩ | ⟨hs, rfl⟩⟩ := step_cases h
  case inl =>
    rw [step_reset (s := { s with host := other }) hc hs] at h'
    cases h'
    simp
  case inr.inl =>
    rw [step_access (s := { s with host := other }) hc hw hs,
      State.sequence_withHost, hu] at h'
    cases h'
    simp
  case inr.inr.inl =>
    rw [step_unreset (s := { s with host := other }) hc hw hs] at h'
    unfold State.unresetEdge at h'
    split at h'
    · cases h'
    · cases h'
      simp
  case inr.inr.inr.inl =>
    rw [step_clockStopped (s := { s with host := other }) hc hs] at h'
    cases h'
    rfl
  case inr.inr.inr.inr =>
    rw [step_powerLost (s := { s with host := other }) hc hs] at h'
    cases h'
    rfl

/-- Settles O47: at an edge of a run the sequencer advances, retires, or starts the pending word, and only
`advance_level_changes` and `effect_level_changes` write a latch; for the host, `step_out_withHost`. -/
theorem onlyTheSequencerWritesLatches : Obligations.OnlyTheSequencerWritesLatches := by
  unfold Obligations.OnlyTheSequencerWritesLatches
  refine ⟨fun s t q h hq => ?_, fun s t t' other => step_out_withHost⟩
  obtain ⟨hc, ⟨oe, hs, -⟩ | ⟨oe, u, hs, hw, hu, rfl⟩ | ⟨oe, -, -, -, rfl⟩ | ⟨-, rfl⟩ | ⟨-, rfl⟩⟩ := step_cases h
  case inl => exact .inl ⟨oe, hs⟩
  case inr.inl =>
    rw [State.endCycle_level, State.accessNext_level] at hq
    obtain ⟨a, ha, -, rfl⟩ | ⟨-, -, rfl⟩ | ⟨w, hf, hp, -, rfl⟩ := State.sequence_cases hu
    · obtain ⟨hn, p, color, bit, phase, cnt, rfl, hpq⟩ := advance_level_changes hq
      exact .inr (.inr ⟨hn, p, color, bit, phase, cnt, ha, hpq⟩)
    · exact absurd rfl hq
    · obtain ⟨hn, hpin⟩ := effect_level_changes (s := s.takePend) hq
      exact .inr (.inl ⟨hn, w, by simp [State.started, State.running, hc, hw, hs, hf, hp], hpin⟩)
  case inr.inr.inl => exact absurd (by simp) hq
  case inr.inr.inr.inl => exact absurd rfl hq
  case inr.inr.inr.inr => exact absurd rfl hq

end Sys2Proof.Machine
end

section
/-!
PROOFS. The register window (20_memory.md): the byte lanes (R47), the accesses that are not answered (R42), the reserved
offsets (R43) and the reads (R44).
-/
namespace Sys2Proof

/-! The byte lanes (R47). -/

/-- R47: the four lanes of a word make the word. -/
theorem wordOfLanes_laneOf (w : Word) : wordOfLanes (laneOf w 0) (laneOf w 1) (laneOf w 2) (laneOf w 3) = w := by
  apply BitVec.eq_of_toNat_eq
  have hw := w.isLt
  simp only [wordOfLanes_toNat, laneOf_toNat]
  omega

/-- Settles O5, by `laneOf_toNat` and `wordOfLanes_laneOf`; lane 3 needs no remainder, as a word has 32 bits. -/
theorem byteLanesAreLittleEndian : Obligations.ByteLanesAreLittleEndian := by
  unfold Obligations.ByteLanesAreLittleEndian
  intro w
  have top : w.toNat / 2 ^ (8 * 3) % 256 = w.toNat / 16777216 := Nat.mod_eq_of_lt (by have := w.isLt; omega)
  have lane0 : w.toNat / 2 ^ (8 * 0) % 256 = w.toNat % 256 := by simp
  exact ⟨(laneOf_toNat w 0).trans lane0, laneOf_toNat w 1, laneOf_toNat w 2, (laneOf_toNat w 3).trans top,
    wordOfLanes_laneOf w⟩

end Sys2Proof

namespace Sys2Proof.Machine

/-- An access that does not stall, and is no 32-bit write to CMD or STATUS, might as well not be presented. -/
theorem step_of_access_ignored {s : State} {x : Access} (hl : s.live = true) (hk : s.clocked = true)
    (hx : s.access = some x) (hr : s.respond x ≠ .stalled)
    (hw : ∀ addr v, x = .write addr 4 v → addr % 256 ≠ 0 ∧ addr % 256 ≠ 4) : step s = step s.silentNow := by
  have hcmd : cmdWord s.access = none := Option.eq_none_iff_forall_ne_some.2 fun v h => by
    obtain ⟨addr, ha, h0⟩ := (cmdWord_eq_some_iff _ v).1 h
    exact (hw addr v (Option.some.inj (hx.symm.trans ha))).1 h0
  have hstatus : statusWrite s.access = none := Option.eq_none_iff_forall_ne_some.2 fun v h => by
    obtain ⟨addr, ha, h4⟩ := (statusWrite_eq_some_iff _ v).1 h
    exact (hw addr v (Option.some.inj (hx.symm.trans ha))).2 h4
  exact step_of_quiet hl hk hcmd hstatus (State.responseWith_ne_stalled hx hr)

/-! The accesses that are not answered (R42). -/

/-- R42: an access of another size, or at an address that is no multiple of 4, is not answered. -/
theorem Access.not_answered {x : Access} (h : x.size ≠ 4 ∨ x.addr % 4 ≠ 0) : ¬ x.answered = true := by
  rw [x.answered_iff]
  omega

namespace State

/-- R42: an access that is not answered gets the error response. -/
theorem respond_of_not_answered (s : State) {x : Access} (h : ¬ x.answered = true) : s.respond x = .busError x.addr :=
  if_neg h

/-- R42, R162: so it does in a reset cycle. -/
theorem respondInReset_of_not_answered {x : Access} (h : ¬ x.answered = true) : respondInReset x = .busError x.addr :=
  if_neg h

/-- R42: a fetch is answered as the read. -/
theorem respond_fetch (s : State) (addr n : Nat) : s.respond (.fetch addr n) = s.respond (.read addr n) := rfl

end State

/-- Settles O20: the answers by `Access.not_answered`, the step by `step_of_access_ignored`, since a write to CMD or
STATUS is aligned. -/
theorem otherAccessesErrAndChangeNothing : Obligations.OtherAccessesErrAndChangeNothing := by
  unfold Obligations.OtherAccessesErrAndChangeNothing
  refine ⟨fun s x h => ?_, State.respond_fetch⟩
  have hr := s.respond_of_not_answered (Access.not_answered h)
  refine ⟨hr, State.respondInReset_of_not_answered (Access.not_answered h), fun hl hk hx =>
    step_of_access_ignored hl hk hx (by simp [hr]) ?_⟩
  rintro addr v rfl
  have ha : addr % 4 ≠ 0 := h.resolve_left fun hn => hn rfl
  omega

/-! The reads (R44). -/

namespace State

/-- R58: what a read answers depends on the latches, the parameters and the three status bits alone. -/
theorem readReg_congr {s t : State} (hc : t.cfg = s.cfg) (ho : t.out = s.out) (hp : t.pending = s.pending)
    (ha : t.active = s.active) (hi : t.ill = s.ill) (off : Nat) : t.readReg off = s.readReg off := by
  unfold readReg statusWord
  rw [hc, ho, hp, ha, hi]

/-- R43: a reserved offset reads 0. -/
theorem readReg_reserved (s : State) {off : Nat} (h : 0x1C ≤ off) : s.readReg off = 0 := by
  obtain ⟨k, rfl⟩ := Nat.exists_eq_add_of_le' h
  rfl

end State

/-- R44: an aligned 32-bit read might as well not be presented. -/
theorem step_of_read {s : State} {addr : Nat} (hl : s.live = true) (hk : s.clocked = true)
    (hx : s.access = some (.read addr 4)) (ha : addr % 4 = 0) : step s = step s.silentNow :=
  step_of_access_ignored hl hk hx (by simp [s.respond_read ha]) nofun

/-- R42, R44: nor need an aligned 32-bit fetch. -/
theorem step_of_fetch {s : State} {addr : Nat} (hl : s.live = true) (hk : s.clocked = true)
    (hx : s.access = some (.fetch addr 4)) (ha : addr % 4 = 0) : step s = step s.silentNow :=
  step_of_access_ignored hl hk hx (by simp [s.respond_fetch, s.respond_read ha]) nofun

/-- Settles O22: the answer by `State.respond_read` and `State.readReg_congr`, the step by `step_of_read` and
`step_of_fetch`. -/
theorem readsCompleteAndHaveNoEffect : Obligations.ReadsCompleteAndHaveNoEffect := by
  unfold Obligations.ReadsCompleteAndHaveNoEffect
  intro s addr ha
  refine ⟨s.respond_read ha, fun h0 => ?cmd, fun s' hc ho hp hact hi => ?same, ?step⟩
  case cmd =>
    rw [s.respond_read ha, h0]
    rfl
  case same => rw [s'.respond_read ha, s.respond_read ha, State.readReg_congr hc ho hp hact hi]
  case step =>
    rintro hl hk (hx | hx)
    · exact step_of_read hl hk hx ha
    · exact step_of_fetch hl hk hx ha

/-! The reserved offsets (R43). -/

/-- Settles O21: a read by `State.readReg_reserved` and `step_of_read`, a write by `State.respond_write` and
`step_of_write_ignored`. -/
theorem reservedOffsetsReadZeroAndIgnoreWrites : Obligations.ReservedOffsetsReadZeroAndIgnoreWrites := by
  unfold Obligations.ReservedOffsetsReadZeroAndIgnoreWrites
  intro s addr hoff ha
  have h0 : addr % 256 ≠ 0 := by omega
  have h4 : addr % 256 ≠ 4 := by omega
  refine ⟨?read, fun v => s.respond_write v ha h0, ?step⟩
  case read => rw [s.respond_read ha, s.readReg_reserved hoff]
  case step =>
    rintro hl hk (hx | ⟨v, hx⟩)
    · exact step_of_read hl hk hx ha
    · exact step_of_write_ignored hl hk hx ha h0 h4

end Sys2Proof.Machine
end

section
/-!
PROOFS. The encoding (30_encoding.md): the decoder and the encoder as equations on the word's number, decoding what the
encoder emits (R60 to R73), the ignored fields (R68) and the reserved words at CMD (R67).
-/
namespace Sys2Proof

open Sys2Proof.Laws

/-! The decoder, one equation per OP value (R61, R67, R70). -/

section
variable {w : Word}

theorem decodeWord_tx (h : w.toNat / 2 ^ 29 = 1) : decodeWord w = .tx (pinField w) (payloadField w) := by
  simp only [decodeWord, opField_toNat, h]

theorem decodeWord_breset (h : w.toNat / 2 ^ 29 = 2) : decodeWord w = .breset (pinField w) := by
  simp only [decodeWord, opField_toNat, h]

theorem decodeWord_setlvl (h : w.toNat / 2 ^ 29 = 3) : decodeWord w = .setlvl (pinField w) (lvlField w) := by
  simp only [decodeWord, opField_toNat, h]

theorem decodeWord_delay (h : w.toNat / 2 ^ 29 = 4) : decodeWord w = .delay (payloadField w) := by
  simp only [decodeWord, opField_toNat, h]

theorem decodeWord_reserved000 (h : w.toNat / 2 ^ 29 = 0) : decodeWord w = .reserved000 (freeField w) := by
  simp only [decodeWord, opField_toNat, h]

theorem decodeWord_reserved101 (h : w.toNat / 2 ^ 29 = 5) : decodeWord w = .reserved101 (freeField w) := by
  simp only [decodeWord, opField_toNat, h]

theorem decodeWord_reserved110 (h : w.toNat / 2 ^ 29 = 6) : decodeWord w = .reserved110 (freeField w) := by
  simp only [decodeWord, opField_toNat, h]

theorem decodeWord_reserved111 (h : w.toNat / 2 ^ 29 = 7) : decodeWord w = .reserved111 (freeField w) := by
  simp only [decodeWord, opField_toNat, h]

/-- R67: OP 0 and OP 5 to 7 decode to no legal command. -/
theorem decodeWord_not_legal (h : w.toNat / 2 ^ 29 = 0 ∨ 5 ≤ w.toNat / 2 ^ 29) : (decodeWord w).legal = false := by
  have hw := w.isLt
  obtain h | h | h | h : w.toNat / 2 ^ 29 = 0 ∨ w.toNat / 2 ^ 29 = 5 ∨ w.toNat / 2 ^ 29 = 6 ∨ w.toNat / 2 ^ 29 = 7 := by
    omega
  · rw [decodeWord_reserved000 h, Instr.legal]
  · rw [decodeWord_reserved101 h, Instr.legal]
  · rw [decodeWord_reserved110 h, Instr.legal]
  · rw [decodeWord_reserved111 h, Instr.legal]

end

/-! The fields of a word put together from fields (R60, R71). -/

theorem pinField_packWord (op : BitVec 3) (pin : Pin) (payload : BitVec 24) :
    pinField (packWord op pin payload) = pin := by
  apply BitVec.eq_of_toNat_eq
  rw [pinField_toNat, packWord_toNat]
  omega

theorem payloadField_packWord (op : BitVec 3) (pin : Pin) (payload : BitVec 24) :
    payloadField (packWord op pin payload) = payload := by
  apply BitVec.eq_of_toNat_eq
  rw [payloadField_toNat, packWord_toNat]
  omega

theorem freeField_append (op : BitVec 3) (x : BitVec 29) : freeField (op ++ x) = x := by
  apply BitVec.eq_of_toNat_eq
  rw [freeField_toNat, append_toNat]
  omega

/-! The encoder as arithmetic (R71). -/

theorem encode_tx_toNat (pin : Pin) (color : Color) :
    (encode (.tx pin color)).toNat = 0x20000000 + pin.toNat * 2 ^ 24 + color.toNat := by
  simp [encode, packWord_toNat]

theorem encode_breset_toNat (pin : Pin) : (encode (.breset pin)).toNat = 0x40000000 + pin.toNat * 2 ^ 24 := by
  simp [encode, packWord_toNat]

theorem encode_setlvl_toNat (pin : Pin) (lvl : Bool) :
    (encode (.setlvl pin lvl)).toNat = 0x60000000 + pin.toNat * 2 ^ 24 + lvl.toNat := by
  have payload : (BitVec.setWidth 24 (BitVec.ofBool lvl)).toNat = lvl.toNat := by cases lvl <;> rfl
  simp [encode, packWord_toNat, payload]

theorem encode_delay_toNat (n : Count) : (encode (.delay n)).toNat = 0x80000000 + n.toNat := by
  simp [encode, packWord_toNat]

theorem lvlField_encode_setlvl (pin : Pin) (lvl : Bool) : lvlField (encode (.setlvl pin lvl)) = lvl := by
  have parity : (0x60000000 + pin.toNat * 2 ^ 24 + lvl.toNat) % 2 = lvl.toNat := by
    have := lvl.toNat_lt
    omega
  rw [lvlField_eq, encode_setlvl_toNat, parity]
  cases lvl <;> rfl

/-! Decoding what the encoder emits. -/

/-- The OP value of the word's row selects the decoder's arm, and each operand is a field of the word. -/
theorem decodeWord_encode (i : Instr) : decodeWord (encode i) = i := by
  cases i with
  | tx pin color =>
    rw [decodeWord_tx (OpField.tx pin color).1, encode, pinField_packWord, payloadField_packWord]
  | breset pin => rw [decodeWord_breset (OpField.breset pin).1, encode, pinField_packWord]
  | setlvl pin lvl =>
    rw [decodeWord_setlvl (OpField.setlvl pin lvl).1, lvlField_encode_setlvl, encode, pinField_packWord]
  | delay n => rw [decodeWord_delay (OpField.delay n).1, encode, payloadField_packWord]
  | reserved000 x => rw [decodeWord_reserved000 (OpField.reserved000 x).1, encode, freeField_append]
  | reserved101 x => rw [decodeWord_reserved101 (OpField.reserved101 x).1, encode, freeField_append]
  | reserved110 x => rw [decodeWord_reserved110 (OpField.reserved110 x).1, encode, freeField_append]
  | reserved111 x => rw [decodeWord_reserved111 (OpField.reserved111 x).1, encode, freeField_append]

/-- R47: the four lanes of a word, with any bytes after them, decode to the word's command and leave those bytes. -/
theorem decodeBytes_lanes (w : Word) (rest : List Byte) :
    decodeBytes ([laneOf w 0, laneOf w 1, laneOf w 2, laneOf w 3] ++ rest) = .ok (decodeWord w, rest) := by
  show Except.ok (decodeWord (wordOfLanes _ _ _ _), rest) = _
  rw [wordOfLanes_laneOf]

/-- Settles O1, by `decodeWord_encode`, for the bytes through `decodeBytes_lanes`. -/
theorem decodeOfEncodeGivesTheInstruction : Obligations.DecodeOfEncodeGivesTheInstruction := by
  unfold Obligations.DecodeOfEncodeGivesTheInstruction
  intro i
  refine ⟨decodeWord_encode i, fun rest => ?_⟩
  rw [encodeBytes, decodeBytes_lanes, decodeWord_encode]

/-- A word that encodes a command decodes to it. -/
theorem encode_and_decode {i : Instr} {w : Word} (h : encode i = w) : encode i = w ∧ decodeWord w = i :=
  ⟨h, h ▸ decodeWord_encode i⟩

/-- Settles O2: the encoder computes each word of R73's table and `encode_and_decode` decodes it; from `0xE0000000` on
the top three bits are 7. -/
theorem workedExamplesEncodeAndDecode : Obligations.WorkedExamplesEncodeAndDecode := by
  unfold Obligations.WorkedExamplesEncodeAndDecode
  refine ⟨encode_and_decode rfl, encode_and_decode rfl, encode_and_decode rfl, encode_and_decode rfl,
    encode_and_decode rfl, encode_and_decode rfl, encode_and_decode rfl, encode_and_decode rfl, encode_and_decode rfl,
    decodeWord_reserved000 rfl, fun w hw => ⟨freeField w, decodeWord_reserved111 ?_⟩⟩
  have := w.isLt
  omega

/-! The operands as arithmetic on the word's number (R66), and the ignored fields (R68). -/

theorem pinField_eq_ofNat (w : Word) : pinField w = BitVec.ofNat 5 (w.toNat / 2 ^ 24) := by
  apply BitVec.eq_of_toNat_eq
  rw [pinField_toNat, BitVec.toNat_ofNat]

theorem payloadField_eq_ofNat (w : Word) : payloadField w = BitVec.ofNat 24 w.toNat := by
  apply BitVec.eq_of_toNat_eq
  rw [payloadField_toNat, BitVec.toNat_ofNat]

/-- R66: the response to a CMD write looks at the word and the queue, and not at the parameters. -/
theorem cmdResponse_withCfg (s : Machine.State) (c : Config) (w : Word) :
    ({ s with cfg := c } : Machine.State).cmdResponse w = s.cmdResponse w := rfl

/-- Settles O3, by the decoder's equations and the fields as numbers. -/
theorem operandsAreTheFieldsOfTheWord : Obligations.OperandsAreTheFieldsOfTheWord := by
  unfold Obligations.OperandsAreTheFieldsOfTheWord
  intro w
  rw [← pinField_eq_ofNat, ← payloadField_eq_ofNat, ← lvlField_eq]
  exact ⟨decodeWord_tx, decodeWord_breset, decodeWord_setlvl, decodeWord_delay, decodeWord_not_legal,
    fun s n => cmdResponse_withCfg s { s.cfg with nPins := n } w⟩

/-- R68: a BRESET decodes by its OP and its pin, a SETLVL by these and its level, a DELAY by its OP and its count. -/
theorem decodeWord_eq_of_read_fields {w v : Word} (hop : w.toNat / 2 ^ 29 = v.toNat / 2 ^ 29)
    (h : (w.toNat / 2 ^ 29 = 2 ∧ w.toNat / 2 ^ 24 = v.toNat / 2 ^ 24) ∨
      (w.toNat / 2 ^ 29 = 3 ∧ w.toNat / 2 ^ 24 = v.toNat / 2 ^ 24 ∧ w.toNat % 2 = v.toNat % 2) ∨
      (w.toNat / 2 ^ 29 = 4 ∧ w.toNat % 2 ^ 24 = v.toNat % 2 ^ 24)) : decodeWord w = decodeWord v := by
  obtain ⟨hw, hpin⟩ | ⟨hw, hpin, hlvl⟩ | ⟨hw, hcount⟩ := h
  · rw [decodeWord_breset hw, decodeWord_breset (hop ▸ hw), pinField_eq_ofNat, pinField_eq_ofNat, hpin]
  · rw [decodeWord_setlvl hw, decodeWord_setlvl (hop ▸ hw), pinField_eq_ofNat, pinField_eq_ofNat, hpin, lvlField_eq,
      lvlField_eq, hlvl]
  · have hpayload : payloadField w = payloadField v :=
      BitVec.eq_of_toNat_eq (by rw [payloadField_toNat, payloadField_toNat, hcount])
    rw [decodeWord_delay hw, decodeWord_delay (hop ▸ hw), hpayload]

end Sys2Proof

namespace Sys2Proof.Machine
namespace State

/-- R90: with ACT free, step 1 of an edge starts or retires. -/
theorem sequence_of_free {s : State} (h : s.free = true) : s.sequence = s.startOrRetire := by
  unfold sequence
  unfold free at h
  split at h
  · rename_i ha
    rw [ha]
  · rename_i a ha
    rw [ha]
    exact if_pos h

/-- R90: with ACT free, what step 1 of an edge makes of a pending word is a function of the command it decodes to. -/
theorem sequence_pending {s : State} (h : s.free = true) (w : Word) :
    ({ s with pend := some w } : State).sequence =
      if (decodeWord w).legal then exec (decodeWord w) s.takePend else .refused .reservedWordPending :=
  sequence_of_free (s := { s with pend := some w }) h

/-! A reserved word written to CMD (R67, R93). -/

/-- R67: a reserved word never stalls. -/
theorem cmdResponse_of_not_legal (s : State) {v : Word} (h : (decodeWord v).legal = false) :
    s.cmdResponse v = .completed := by
  rw [cmdResponse, h, Bool.false_and, if_neg Bool.false_ne_true]

/-- R93: a reserved word sets ILL and does nothing else at its edge. -/
theorem accessNext_of_not_legal (s : State) {x : Option Access} {v : Word} (t : State) (hx : cmdWord x = some v)
    (h : (decodeWord v).legal = false) : s.accessNext x t = t.setIll := by
  simp [accessNext, hx, h]

/-- Setting ILL before or after the inputs move on is the same. -/
theorem endCycle_setIll (s : State) (r : Bool) (oe : BitVec 32) (t : State) :
    s.endCycle r oe t.setIll = (s.endCycle r oe t).setIll := by
  unfold endCycle notePad
  split <;> rfl

end State

/-- Settles O4, by `decodeWord_eq_of_read_fields` and `State.sequence_pending`. -/
theorem reservedFieldsDoNotMatter : Obligations.ReservedFieldsDoNotMatter := by
  unfold Obligations.ReservedFieldsDoNotMatter
  intro w v hop h
  have hdec := decodeWord_eq_of_read_fields hop h
  refine ⟨hdec, fun s hf => ?_⟩
  rw [State.sequence_pending hf, State.sequence_pending hf, hdec]

/-- Settles O26: the word does not stall, so the host's slot is over as in a silent cycle, and at the edge it sets ILL
after the sequencer, whose share is that of the silent cycle. -/
theorem reservedWordIsDiscardedAndSetsIll : Obligations.ReservedWordIsDiscardedAndSetsIll := by
  unfold Obligations.ReservedWordIsDiscardedAndSetsIll
  intro s oe addr v hl hs hx h0 hop
  obtain ⟨hc, hw⟩ := (State.live_iff s).1 hl
  have hv := decodeWord_not_legal hop
  obtain ⟨hresp, hcmd⟩ := cmd_write hx h0
  rw [s.cmdResponse_of_not_legal hv] at hresp
  have hhost : s.hostAfter false = s.host.tail := State.hostAfter_completed (by simp [hresp])
  refine ⟨hresp, fun t ht => ?_⟩
  rw [step_silentNow hc hw hs] at ht
  rw [step_access hc hw hs]
  cases hq : s.sequence with
  | next u =>
    rw [hq] at ht
    cases ht
    simp only [s.accessNext_of_not_legal u hcmd hv, State.endCycle_setIll, State.endCycle_silentNow hhost]
    rfl
  | fault r => rw [hq] at ht; cases ht
  | refused r => rw [hq] at ht; cases ht

end Sys2Proof.Machine
end

section
/-!
PROOFS. The assembler (30_encoding.md R71, R72): lines that fail, the commands of each line, and programs.
-/
namespace Sys2Proof.Machine

/-! Failing. -/

/-- The assembler answers an error (R71: "not a truncation"). -/
def Fails {α : Type} (x : Except AsmError α) : Prop := ∃ e, x = .error e

section
variable {α β : Type} {x : Except AsmError α} {f : α → Except AsmError β}

theorem fails_bind (h : Fails x) : Fails (x >>= f) := by
  obtain ⟨e, rfl⟩ := h
  exact ⟨e, rfl⟩

theorem fails_bind_of_forall (h : ∀ a, Fails (f a)) : Fails (x >>= f) := by
  cases x with
  | error e => exact ⟨e, rfl⟩
  | ok a => exact h a

end

namespace AsmLine

theorem pinOf_fails {n : Nat} (h : ¬ n < 32) : Fails (pinOf n) := ⟨_, pinOf_error h⟩
theorem lvlOf_fails {n : Nat} (h : ¬ n < 2) : Fails (lvlOf n) := ⟨_, lvlOf_error h⟩
theorem countOf_fails {n : Nat} (h : ¬ n ≤ 0xFFFFFF) : Fails (countOf n) := ⟨_, countOf_error h⟩
theorem colorOf_fails {n : Nat} (h : ¬ n ≤ 0xFFFFFF) : Fails (colorOf n) := ⟨_, colorOf_error h⟩

/-! The commands of a line whose operands are in range. -/

section
variable {pin : Nat} (hpin : pin < 32)
include hpin

theorem commands_tx {color : Nat} (hcolor : color ≤ 0xFFFFFF) :
    (tx pin color).commands = .ok [.tx (BitVec.ofNat 5 pin) (BitVec.ofNat 24 color)] := by
  rw [commands, pinOf_ok hpin, colorOf_ok hcolor]; rfl

theorem commands_breset : (breset pin).commands = .ok [.breset (BitVec.ofNat 5 pin)] := by
  rw [commands, pinOf_ok hpin]; rfl

theorem commands_setlvl {lvl : Nat} (hlvl : lvl < 2) :
    (setlvl pin lvl).commands = .ok [.setlvl (BitVec.ofNat 5 pin) (decide (lvl = 1))] := by
  rw [commands, pinOf_ok hpin, lvlOf_ok hlvl]; rfl

theorem commands_high : (high pin).commands = .ok [.setlvl (BitVec.ofNat 5 pin) true] := by
  rw [commands, pinOf_ok hpin]; rfl

theorem commands_low : (low pin).commands = .ok [.setlvl (BitVec.ofNat 5 pin) false] := by
  rw [commands, pinOf_ok hpin]; rfl

/-- R72: a PULSE of one cycle is its SETLVL alone, a longer one waits for the other cycles. -/
theorem commands_pulse {lvl c : Nat} (hlvl : lvl < 2) (hpos : 1 ≤ c) (hc : c ≤ 2 ^ 24) :
    (pulse pin lvl c).commands = .ok ([.setlvl (BitVec.ofNat 5 pin) (decide (lvl = 1))] ++
      if 2 ≤ c then [.delay (BitVec.ofNat 24 (c - 1))] else []) := by
  match c with
  | 1 => rw [commands, pinOf_ok hpin, lvlOf_ok hlvl]; rfl
  | c + 2 =>
    rw [commands, pinOf_ok hpin, lvlOf_ok hlvl, countOf_ok (by omega), if_pos (by omega)]; rfl

theorem commands_frame {colors : List Nat} (hcolors : ∀ c ∈ colors, c ≤ 0xFFFFFF) :
    (frame pin colors).commands = .ok (colors.map (fun c => .tx (BitVec.ofNat 5 pin) (BitVec.ofNat 24 c)) ++
      [.breset (BitVec.ofNat 5 pin)]) := by
  obtain ⟨-, h⟩ | ⟨⟨c, hc, hbad⟩, -⟩ := frameCommands_cases (BitVec.ofNat 5 pin) colors
  · rw [commands, pinOf_ok hpin]
    exact h
  · exact absurd (hcolors c hc) hbad

end

theorem commands_delay {n : Nat} (hn : n ≤ 0xFFFFFF) : (delay n).commands = .ok [.delay (BitVec.ofNat 24 n)] := by
  rw [commands, countOf_ok hn]; rfl

/-! The lines that fail. -/

theorem tx_fails {pin color : Nat} (h : ¬ (pin < 32 ∧ color ≤ 0xFFFFFF)) : Fails (tx pin color).commands := by
  obtain h | h := not_and_or.1 h
  · exact fails_bind (pinOf_fails h)
  · exact fails_bind_of_forall fun _ => fails_bind (colorOf_fails h)

theorem breset_fails {pin : Nat} (h : ¬ pin < 32) : Fails (breset pin).commands := fails_bind (pinOf_fails h)

theorem setlvl_fails {pin lvl : Nat} (h : ¬ (pin < 32 ∧ lvl < 2)) : Fails (setlvl pin lvl).commands := by
  obtain h | h := not_and_or.1 h
  · exact fails_bind (pinOf_fails h)
  · exact fails_bind_of_forall fun _ => fails_bind (lvlOf_fails h)

theorem delay_fails {n : Nat} (h : ¬ n ≤ 0xFFFFFF) : Fails (delay n).commands := fails_bind (countOf_fails h)

theorem high_fails {pin : Nat} (h : ¬ pin < 32) : Fails (high pin).commands := fails_bind (pinOf_fails h)

theorem low_fails {pin : Nat} (h : ¬ pin < 32) : Fails (low pin).commands := fails_bind (pinOf_fails h)

theorem pulse_fails {pin lvl c : Nat} (h : ¬ (pin < 32 ∧ lvl < 2 ∧ 1 ≤ c ∧ c ≤ 2 ^ 24)) :
    Fails (pulse pin lvl c).commands := by
  match c with
  | 0 => exact ⟨.emptyPulse, rfl⟩
  | 1 => exact setlvl_fails (by omega)
  | c + 2 =>
    obtain h | h | h : ¬ pin < 32 ∨ ¬ lvl < 2 ∨ ¬ c + 1 ≤ 0xFFFFFF := by omega
    · exact fails_bind (pinOf_fails h)
    · exact fails_bind_of_forall fun _ => fails_bind (lvlOf_fails h)
    · exact fails_bind_of_forall fun _ => fails_bind_of_forall fun _ => fails_bind (countOf_fails h)

theorem frame_fails {pin : Nat} {colors : List Nat} (h : ¬ (pin < 32 ∧ ∀ c ∈ colors, c ≤ 0xFFFFFF)) :
    Fails (frame pin colors).commands := by
  obtain h | h := not_and_or.1 h
  · exact fails_bind (pinOf_fails h)
  · refine fails_bind_of_forall fun p => ?_
    obtain ⟨hcolors, -⟩ | ⟨-, hfails⟩ := frameCommands_cases p colors
    · exact absurd hcolors h
    · exact hfails

/-! The words that lines assemble to (R71). -/

theorem ofNat_pin_toNat {n : Nat} (h : n < 32) : (BitVec.ofNat 5 n).toNat = n := by
  rw [BitVec.toNat_ofNat]; omega

theorem ofNat_payload_toNat {n : Nat} (h : n ≤ 0xFFFFFF) : (BitVec.ofNat 24 n).toNat = n := by
  rw [BitVec.toNat_ofNat]; omega

theorem decide_level_toNat {lvl : Nat} (h : lvl < 2) : (decide (lvl = 1)).toNat = lvl := by
  match lvl with
  | 0 => rfl
  | 1 => rfl

end AsmLine

open AsmLine

/-- Settles O51: each line by its `commands_` lemma and the number of its word in range, by its `_fails` lemma out of
range. -/
theorem assemblerEmitsTheWordOrRejects : Obligations.AssemblerEmitsTheWordOrRejects := by
  unfold Obligations.AssemblerEmitsTheWordOrRejects
  refine ⟨fun pin color => ⟨?tx, tx_fails⟩, fun pin => ⟨?breset, breset_fails⟩,
    fun pin lvl => ⟨?setlvl, setlvl_fails⟩, fun n => ⟨?delay, delay_fails⟩⟩
  case tx =>
    rintro ⟨hp, hc⟩
    exact ⟨_, commands_tx hp hc, by rw [encode_tx_toNat, ofNat_pin_toNat hp, ofNat_payload_toNat hc]⟩
  case breset =>
    intro hp
    exact ⟨_, commands_breset hp, by rw [encode_breset_toNat, ofNat_pin_toNat hp]⟩
  case setlvl =>
    rintro ⟨hp, hv⟩
    exact ⟨_, commands_setlvl hp hv, by rw [encode_setlvl_toNat, ofNat_pin_toNat hp, decide_level_toNat hv]⟩
  case delay =>
    intro hn
    exact ⟨_, commands_delay hn, by rw [encode_delay_toNat, ofNat_payload_toNat hn]⟩

/-! Programs (R71). -/

/-- A program of good lines assembles to their commands, line after line. -/
theorem assemble_of_commands {lines : List AsmLine} {expand : AsmLine → List Instr}
    (h : ∀ line ∈ lines, line.commands = .ok (expand line)) : assemble lines = .ok (lines.flatMap expand) := by
  induction lines with
  | nil => rfl
  | cons line rest ih =>
    obtain ⟨hline, hrest⟩ := List.forall_mem_cons.1 h
    rw [assemble_cons_ok hline, ih hrest, List.flatMap_cons]
    rfl

/-- A program with a bad line does not assemble. -/
theorem assemble_fails {lines : List AsmLine} (h : ∃ line ∈ lines, Fails line.commands) : Fails (assemble lines) := by
  induction lines with
  | nil => obtain ⟨line, hmem, -⟩ := h; cases hmem
  | cons line rest ih =>
    cases hline : line.commands with
    | error e => exact ⟨e, assemble_cons_error hline rest⟩
    | ok is =>
      have hfirst : ¬ Fails line.commands := by
        rintro ⟨e, he⟩
        rw [hline] at he; cases he
      obtain ⟨e, he⟩ := ih ((List.exists_mem_cons_iff ..).1 h |>.resolve_left hfirst)
      exact ⟨e, by rw [assemble_cons_ok hline, he]; rfl⟩

/-- Settles O52: each line by its `commands_` lemma in range and its `_fails` lemma out of range, a program by
`assemble_of_commands` and `assemble_fails`. -/
theorem pseudoCommandsExpandInOrder : Obligations.PseudoCommandsExpandInOrder := by
  unfold Obligations.PseudoCommandsExpandInOrder
  exact ⟨fun _ hp => ⟨commands_high hp, commands_low hp⟩, fun _ hp => ⟨high_fails hp, low_fails hp⟩, rfl,
    fun _ _ _ ⟨hp, hlvl, hpos, hc⟩ => commands_pulse hp hlvl hpos hc, fun _ _ _ => pulse_fails,
    fun _ _ ⟨hp, hcolors⟩ => commands_frame hp hcolors, fun _ _ => frame_fails,
    fun _ _ => assemble_of_commands, fun _ => assemble_fails⟩

end Sys2Proof.Machine
end

section
/-!
PROOFS. The sequencer (40_sequencer.md): the commands as they enter ACT (R85, R93), durations (R82, R84), an edge of a
run (R90), the queue (R91, R92), and runs of several cycles (R83, R89, R94, R95, R99).
-/
namespace Sys2Proof.Machine

/-! A command at the edge where it enters ACT (R85). -/

namespace State
variable (s : State) (pin : Pin) (v : Bool) (kind : ActKind) (cnt : Count)

/-- R85: a pin that does not exist names no latch. -/
theorem startDriving_out_of_no_latch (hp : s.cfg.nPins ≤ pin.toNat) : (s.startDriving pin v kind cnt).out = s.out := by
  have hpin : pinExists s.cfg pin = false := decide_eq_false (by omega)
  simp [startDriving, setLevel, hpin]

/-- R85, R141: what a command that drives a pin does as it enters ACT, and what it leaves. -/
theorem startDriving_spec : (s.startDriving pin v kind cnt).act = some ⟨kind, cnt⟩ ∧
    (pin.toNat < s.cfg.nPins →
      (s.startDriving pin v kind cnt).level pin.toNat = v ∧ (s.startDriving pin v kind cnt).faults = s.faults) ∧
    (s.cfg.nPins ≤ pin.toNat → (s.startDriving pin v kind cnt).out = s.out ∧
      (s.startDriving pin v kind cnt).faults = { s.faults with pinOutOfRange := true }) ∧
    (∀ q, q ≠ pin.toNat → (s.startDriving pin v kind cnt).level q = s.level q) ∧
    CommandFrame s (s.startDriving pin v kind cnt) := by
  refine ⟨by simp, fun hp => ⟨?level, ?faults⟩, fun hp => ⟨s.startDriving_out_of_no_latch pin v kind cnt hp, ?record⟩,
    fun q hq => ?other, by simp [CommandFrame]⟩
  case level => rw [startDriving_level, if_pos ⟨rfl, hp⟩]
  case faults => simp [startDriving_faults, pinExists, hp]
  case record => simp [startDriving_faults, pinExists, hp]
  case other => rw [startDriving_level, if_neg fun h => hq h.1.symm]

end State

/-- Settles O6, by `State.startDriving_spec`. -/
theorem txEntersActWithBit23High : Obligations.TxEntersActWithBit23High := by
  unfold Obligations.TxEntersActWithBit23High
  exact fun pin color s => ⟨_, rfl, s.startDriving_spec pin true _ _⟩

/-- Settles O8, by `State.startDriving_spec`. -/
theorem setlvlEntersActWithThePinAtTheLevel : Obligations.SetlvlEntersActWithThePinAtTheLevel := by
  unfold Obligations.SetlvlEntersActWithThePinAtTheLevel
  exact fun pin lvl s => ⟨_, rfl, s.startDriving_spec pin lvl _ _⟩

/-- Settles O7, by `State.startDriving_spec`, on which `noteReset` puts its record. -/
theorem bresetEntersActWithThePinLow : Obligations.BresetEntersActWithThePinLow := by
  unfold Obligations.BresetEntersActWithThePinLow
  intro pin s
  obtain ⟨hact, hlatch, hnone, hother, -⟩ := s.startDriving_spec pin false (.breset pin) (toCount s.cfg.tReset)
  have hshort : (s.startDriving pin false (.breset pin) (toCount s.cfg.tReset)).noteReset.faults.resetTooShort =
      (s.faults.resetTooShort || !s.cfg.resetLongEnough) := by
    simp [State.noteReset_faults, State.startDriving_faults]
  refine ⟨_, rfl, (State.noteReset_act _).trans hact, fun hp => ⟨?level, ?faults⟩, fun hp => ⟨?out, ?record⟩,
    fun h => ?long, fun h => ?short, ?pad, fun q hq => ?other, ?frame⟩
  case level => rw [State.noteReset_level, (hlatch hp).1]
  case faults => rw [State.noteReset_faults, (hlatch hp).2]
  case out => rw [State.noteReset_out, (hnone hp).1]
  case record => rw [State.noteReset_faults, (hnone hp).2]
  case long => simp [hshort, Config.resetLongEnough, h]
  case short => simp [hshort, Config.resetLongEnough, h]
  case pad => simp [State.noteReset_faults, State.startDriving_faults]
  case other => rw [State.noteReset_level, hother q hq]
  case frame => simp [CommandFrame]

/-- Settles O9: DELAY loads ACT and does nothing else. -/
theorem delayEntersActForItsCycles : Obligations.DelayEntersActForItsCycles := by
  unfold Obligations.DelayEntersActForItsCycles
  exact fun n s => ⟨_, rfl, ⟨_, rfl, delayCycles_toNat n⟩, rfl, rfl, rfl, rfl, rfl, rfl, rfl, rfl⟩

/-- Settles O10, by `effect_reserved`. -/
theorem reservedWordsSetIllOnly : Obligations.ReservedWordsSetIllOnly := by
  unfold Obligations.ReservedWordsSetIllOnly
  have reserved : ∀ {i : Instr} (s : State), i.legal = false → exec i s = .next { s with ill := true } :=
    fun s hi => by rw [exec_eq_effect, effect_reserved hi]; rfl
  exact fun x s => ⟨reserved s rfl, reserved s rfl, reserved s rfl, reserved s rfl⟩

/-! Durations (R82, R84). -/

/-- Settles O30, by the durations of the phases on well-formed parameters. -/
theorem phasesOfABitAddUpToTheBitPeriod : Obligations.PhasesOfABitAddUpToTheBitPeriod := by
  unfold Obligations.PhasesOfABitAddUpToTheBitPeriod
  intro c b hc
  obtain ⟨-, -, hsum⟩ := phases hc b
  exact ⟨hdur_toNat hc b, ldur_toNat hc b, hsum⟩

/-- R82: a TX lasts 24 bit periods. -/
theorem duration_tx (c : Config) (pin : Pin) (color : Color) : duration c (.tx pin color) = 24 * (c.tShort + c.tLong) :=
  txSegments_total c pin color 24

/-- R82: no command lasts longer than 24 times the largest count. -/
theorem duration_le {c : Config} (hc : c.wellFormed = true) (i : Instr) : duration c i ≤ 24 * (2 ^ 24 - 1) := by
  obtain ⟨-, -, hbit, ⟨-, hreset⟩, -⟩ := (Config.wellFormed_iff c).1 hc
  cases i with
  | tx pin color => rw [duration_tx]; omega
  | breset pin => show c.tReset ≤ _; omega
  | setlvl pin lvl => show 1 ≤ _; omega
  | delay n => have := n.isLt; show max n.toNat 1 ≤ _; omega
  | reserved000 x => exact Nat.zero_le _
  | reserved101 x => exact Nat.zero_le _
  | reserved110 x => exact Nat.zero_le _
  | reserved111 x => exact Nat.zero_le _

/-- Settles O31: the sum of a TX's segments is `duration_tx`, the bounds are `duration_pos` and `duration_le`. -/
theorem durationsOfTheCommands : Obligations.DurationsOfTheCommands := by
  unfold Obligations.DurationsOfTheCommands
  intro c hc
  exact ⟨duration_tx c, fun _ => rfl, fun _ _ => rfl, fun _ => rfl,
    fun i hi => ⟨duration_pos hc hi, duration_le hc i⟩⟩

/-! One edge of a run (R90). -/

/-- R90: at an edge of a run the sequencer comes first, then the host's access, and then the inputs move on. -/
theorem step_of_sequence {s t : State} {oe : BitVec 32} (hl : s.live = true) (hs : s.slot = .edge false oe)
    (hq : s.sequence = .next t) : step s = .next (s.endCycle false oe (s.accessNext s.access t)) := by
  obtain ⟨hc, hw⟩ := (State.live_iff s).1 hl
  rw [step_access hc hw hs, hq]

/-- The same with the access's own outcome. -/
theorem exists_step_of_sequence {s t : State} {oe : BitVec 32} (hl : s.live = true) (hs : s.slot = .edge false oe)
    (hq : s.sequence = .next t) :
    ∃ u, s.applyAccess s.access t = .next u ∧ step s = .next (s.endCycle false oe u) :=
  ⟨_, s.applyAccess_eq s.access t, step_of_sequence hl hs hq⟩

/-- R87: an active command that does not finish is advanced. -/
theorem State.sequence_of_not_finishing {s : State} {a : Active} (ha : s.act = some a) (hf : a.finishing = false) :
    s.sequence = .next (s.advance a) := by
  unfold sequence
  rw [ha]
  exact if_neg (by simp [hf])

/-- R88: with ACT free and nothing pending, ACT becomes idle. -/
theorem State.sequence_retire {s : State} (hf : s.free = true) (hp : s.pend = none) :
    s.sequence = .next s.retire := by
  rw [sequence_of_free hf, startOrRetire, hp]

/-- R85: with ACT free, a legal pending word is executed. -/
theorem State.sequence_start {s : State} {w : Word} (hf : s.free = true) (hp : s.pend = some w)
    (hw : (decodeWord w).legal = true) : s.sequence = exec (decodeWord w) s.takePend := by
  rw [sequence_of_free hf, startOrRetire, hp]
  exact if_pos hw

/-- Settles O12, by the equations of the sequencer. -/
theorem stepAdvancesOrRetiresOtherwise : Obligations.StepAdvancesOrRetiresOtherwise := by
  unfold Obligations.StepAdvancesOrRetiresOtherwise
  intro s oe hl hs
  refine ⟨fun a ha hf => exists_step_of_sequence hl hs (State.sequence_of_not_finishing ha hf), fun hf hp => ?_⟩
  have hstep := step_of_sequence hl hs (State.sequence_retire hf hp)
  exact ⟨_, s.applyAccess_eq _ _, hstep, by simp, by simp⟩

/-- R47, R70: the command that the four lanes of a word decode to. -/
theorem decodeWord_of_decodeBytes {w : Word} {i : Instr}
    (h : decodeBytes [laneOf w 0, laneOf w 1, laneOf w 2, laneOf w 3] = .ok (i, [])) : decodeWord w = i := by
  have hw := decodeBytes_lanes w []
  rw [List.append_nil, h] at hw
  cases hw
  rfl

/-- Settles O11: a pending word runs by `State.sequence_start`, and what a reserved word at CMD does is its `effect`. -/
theorem stepRunsTheDecodedCommand : Obligations.StepRunsTheDecodedCommand := by
  unfold Obligations.StepRunsTheDecodedCommand
  intro s oe hl hs
  refine ⟨fun w i hf hp hd hi => ?pending, fun addr v t i hx h0 hd hi hq => ?reserved⟩
  case pending =>
    cases decodeWord_of_decodeBytes hd
    have hexec := exec_eq_effect (decodeWord w) s.takePend
    obtain ⟨u, hu, hstep⟩ := exists_step_of_sequence hl hs ((State.sequence_start hf hp hi).trans hexec)
    exact ⟨_, u, hexec, hu, hstep⟩
  case reserved =>
    cases decodeWord_of_decodeBytes hd
    have hstep := step_of_sequence hl hs hq
    rw [s.accessNext_of_not_legal t (cmd_write hx h0).2 hi, ← effect_reserved hi] at hstep
    exact ⟨_, exec_eq_effect _ t, hstep⟩

/-- Settles O45, slot by slot: only an edge with RST low before the first RST looks at the access. -/
theorem runsStopOnlyAtAnAccessBeforeTheFirstRst : Obligations.RunsStopOnlyAtAnAccessBeforeTheFirstRst := by
  unfold Obligations.RunsStopOnlyAtAnAccessBeforeTheFirstRst
  rintro s ⟨hc, hi⟩
  cases hs : s.slot with
  | clockStopped => exact .inl ⟨_, step_clockStopped hc hs⟩
  | powerLost => exact .inl ⟨_, step_powerLost hc hs⟩
  | edge rst oe =>
    cases rst with
    | true => exact .inl ⟨_, step_reset hc hs⟩
    | false =>
      cases hw : s.wasReset with
      | true => exact .inl ⟨_, step_run hc hw hs (hi hw).pend⟩
      | false =>
        rw [step_unreset hc hw hs, State.unresetEdge]
        cases s.access with
        | none => exact .inl ⟨_, rfl⟩
        | some x => exact .inr ⟨rfl, rfl, rfl⟩

/-! A legal word written to CMD (R91, R92). -/

section
variable {s : State} {x : Option Access} {v : Word} (hx : cmdWord x = some v) (hv : (decodeWord v).legal = true)
include hx hv

/-- R91: with room, a legal word is accepted. -/
theorem acceptedWord_of_accepts (ha : s.accepts = true) : s.acceptedWord x = some v := by
  simp [State.acceptedWord, hx, hv, ha]

/-- R92: at the edge it goes into PEND. -/
theorem accessNext_of_accepts (ha : s.accepts = true) (t : State) : s.accessNext x t = t.fillPend v := by
  simp [State.accessNext, hx, hv, ha]

/-- R91: without room it changes nothing. -/
theorem accessNext_of_full (ha : s.accepts = false) (t : State) : s.accessNext x t = t := by
  simp [State.accessNext, hx, hv, ha]

end

/-- R91: the queue is full when a word is pending and ACT is not free. -/
theorem accepts_eq_false {s : State} (hp : s.pend ≠ none) (hf : s.free = false) : s.accepts = false := by
  simp [State.accepts, State.pending, hf, Option.isSome_iff_ne_none.2 hp]

/-- R91: there is room when nothing is pending or ACT is free. -/
theorem accepts_eq_true {s : State} (h : s.pend = none ∨ s.free = true) : s.accepts = true := by
  rcases h with h | h <;> simp [State.accepts, State.pending, h]

section
variable {s : State} {addr : Nat} {v : Word} (hx : s.access = some (.write addr 4 v)) (h0 : addr % 256 = 0)
include hx h0

/-- R91: with room, a write to CMD completes. -/
theorem response_of_accepts (ha : s.accepts = true) : s.responseWith false = some .completed := by
  rw [(cmd_write hx h0).1]
  simp [State.cmdResponse, ha]

/-- R91: without room, that of a legal word stalls. -/
theorem response_of_full (hv : (decodeWord v).legal = true) (ha : s.accepts = false) :
    s.responseWith false = some .stalled := by
  rw [(cmd_write hx h0).1]
  simp [State.cmdResponse, ha, hv]

end

/-- Filling PEND before or after the inputs move on is the same. -/
theorem State.endCycle_fillPend (s : State) (r : Bool) (oe : BitVec 32) (t : State) (w : Word) :
    s.endCycle r oe (t.fillPend w) = (s.endCycle r oe t).fillPend w := by
  unfold endCycle notePad
  split <;> rfl

/-- Settles O27: the write does not stall, so the host's slot is over as in a silent cycle, and at the edge it fills
PEND after the sequencer, whose share is that of the silent cycle. -/
theorem acceptedWordIsPendingAsWritten : Obligations.AcceptedWordIsPendingAsWritten := by
  unfold Obligations.AcceptedWordIsPendingAsWritten
  intro s oe addr v hl hi hs hx h0 hv hroom
  obtain ⟨hc, hw⟩ := (State.live_iff s).1 hl
  have ha := accepts_eq_true hroom
  have hresp := response_of_accepts hx h0 ha
  have hhost : s.hostAfter false = s.host.tail := State.hostAfter_completed (by simp [hresp])
  refine ⟨hresp, (s.endCycle false oe s.sequenceNext).fillPend v, s.endCycle false oe s.sequenceNext, ?step, ?silent,
    rfl, ?pending⟩
  case step =>
    rw [step_of_sequence hl hs (State.sequence_eq hi.pend), accessNext_of_accepts (cmd_write hx h0).2 hv ha,
      State.endCycle_fillPend]
  case silent =>
    rw [step_silentNow hc hw hs, State.sequence_eq hi.pend]
    exact congrArg Host.Outcome.next (State.endCycle_silentNow hhost oe _)
  case pending => exact (State.readReg_status_fields _).2.1

/-- R46: a stalled write is presented again. -/
theorem State.hostAfter_stalled {s : State} (h : s.responseWith false = some .stalled) : s.hostAfter false = s.host :=
  if_pos h

/-- A silent slot put before the host's slots is over at the end of the cycle, and they are left. -/
theorem State.endCycle_silentBefore {s : State} (h : s.hostAfter false = s.host) (oe : BitVec 32) (t : State) :
    ({ s with host := none :: s.host } : State).endCycle false oe t = s.endCycle false oe t := by
  unfold endCycle
  rw [h]
  rfl

/-- Settles O28: the stalled write neither fills PEND nor leaves the host's slots. -/
theorem legalWordStallsWhileTheQueueIsFull : Obligations.LegalWordStallsWhileTheQueueIsFull := by
  unfold Obligations.LegalWordStallsWhileTheQueueIsFull
  intro s oe addr v hl hi hs hx h0 hv hp hf
  obtain ⟨hc, hw⟩ := (State.live_iff s).1 hl
  have ha := accepts_eq_false hp hf
  have hresp := response_of_full hx h0 hv ha
  have hhost := State.hostAfter_stalled hresp
  refine ⟨hresp, s.endCycle false oe s.sequenceNext, ?step, ?silent, by simp [hhost], by simp [sequenceNext_pend, hf]⟩
  case step =>
    rw [step_of_sequence hl hs (State.sequence_eq hi.pend), accessNext_of_full (cmd_write hx h0).2 hv ha]
  case silent =>
    have hq : ({ s with host := none :: s.host } : State).sequence =
        .next { s.sequenceNext with host := none :: s.host } := by
      rw [State.sequence_withHost, State.sequence_eq hi.pend]
      rfl
    rw [step_of_sequence (s := { s with host := none :: s.host }) hl hs hq]
    exact congrArg Host.Outcome.next (State.endCycle_silentBefore hhost oe s.sequenceNext)

/-! A command over its cycles (R83). -/

/-- R86: in an active cycle ACT is free exactly when it is the command's last. -/
theorem Running.free_eq {s : State} {a : Active} (h : Running s) (ha : s.act = some a) :
    s.free = decide (a.remaining s.cfg = 1) := by
  have hfree : s.free = a.finishing := by rw [State.free, ha]
  rw [hfree, Bool.eq_iff_iff, decide_eq_true_iff]
  exact finishing_iff h.wf (h.registers.active a ha)

/-- R83: cycle `t` of a command that enters ACT now. -/
theorem Starting.plays {s : State} {i : Instr} {t : Nat} (h : Starting s i) (ht : t < duration s.cfg i)
    (hr : s.runsFor (1 + t)) : ∃ u, s.after (1 + t) = .next u ∧ Running u ∧ u.cfg = s.cfg ∧ u.active = true ∧
      u.free = decide (t + 1 = duration s.cfg i) ∧
      ∀ q, q < s.cfg.nPins → u.level q = levelAt (segments s.cfg i) t q (s.level q) := by
  obtain ⟨u, b, hu, hR, hcfg, hb, hrem, hlev⟩ := h.after ht hr
  refine ⟨u, hu, hR, hcfg, by simp [State.active, hb], ?free, fun q hq => ?level⟩
  case free =>
    rw [hR.free_eq hb, hcfg]
    exact decide_eq_decide.2 (by omega)
  case level =>
    have hnow := hR.level_now hb (hcfg ▸ hq)
    rw [hcfg] at hnow
    rw [← hnow, hlev q 0 hq, Nat.zero_add]

/-- R83: its last cycle, one edge before the next command's first. -/
theorem Starting.last {s : State} {i : Instr} (h : Starting s i) (hr : s.runsFor (1 + duration s.cfg i)) :
    ∃ u, s.after (duration s.cfg i) = .next u ∧ Running u ∧ u.cfg = s.cfg ∧ u.free = true ∧ u.runsFor 1 ∧
      ∀ q, q < s.cfg.nPins → u.level q = levelAfter (segments s.cfg i) q (s.level q) := by
  have hd := duration_pos h.running.wf h.legal
  have hlast : 1 + (duration s.cfg i - 1) = duration s.cfg i := by omega
  obtain ⟨u, hu, hR, hcfg, -, hfree, hlev⟩ := h.plays (t := duration s.cfg i - 1) (by omega)
    (State.runsFor_mono hr (by omega))
  obtain ⟨u', hu', -, -, hr1⟩ := h.running.after_runsFor (j := duration s.cfg i) (k := 1) (by rwa [Nat.add_comm])
  rw [hlast] at hu
  cases hu.symm.trans hu'
  refine ⟨u, hu, hR, hcfg, by simpa using hfree.trans (decide_eq_true (by omega)), hr1, fun q hq => ?_⟩
  obtain ⟨hpos, hne⟩ := segments_pos h.running.wf h.legal
  rw [hlev q hq]
  exact levelAt_last _ hpos hne q _

/-- R85: with ACT free, the pending word enters ACT in a running cycle. -/
theorem State.started_of_free {s : State} (hr : s.running = true) (hf : s.free = true) :
    s.started = s.pend.toList := by
  simp [started, hr, hf]

/-- R85: with ACT not free, nothing enters it. -/
theorem State.started_of_not_free {s : State} (hf : s.free = false) : s.started = [] := by
  simp [started, hf]

/-- R88: with ACT free and nothing pending, the next cycle is without a command. -/
theorem State.edgeNext_act_of_retire {s : State} (hf : s.free = true) (hp : s.pend = none) (oe : BitVec 32) :
    (s.edgeNext oe).act = none := by
  simp [sequenceNext_of_free hf, startNext, hp]

/-- R85: with ACT free and a word pending, the word enters ACT, and the next cycle is the first of its duration. -/
theorem Running.next_of_pending {s : State} {w : Word} (h : Running s) (hf : s.free = true) (hp : s.pend = some w)
    (hr : s.runsFor 1) : s.started = [w] ∧ ∃ v, Machine.step s = .next v ∧ v.active = true ∧
      v.remaining = duration s.cfg (decodeWord w) := by
  obtain ⟨oe, hs, hst, -, -⟩ := h.step hr
  obtain ⟨b, hb, hrem, -⟩ := h.step_start hf hp oe
  refine ⟨by simp [State.started_of_free (h.running hs) hf, hp], s.edgeNext oe, hst, ?_, ?_⟩
  · rw [State.active, hb, Option.isSome_some]
  · simp only [State.remaining, hb, State.edgeNext_cfg, hrem]

/-- Settles O32, by `Starting.plays` and, for the cycle after the last, the two things ACT does when it is free. -/
theorem commandPlaysItsSegments : Obligations.CommandPlaysItsSegments := by
  unfold Obligations.CommandPlaysItsSegments
  intro s i h hr
  refine ⟨fun t ht => ?cycles, ?next⟩
  case cycles =>
    obtain ⟨u, hu, -, -, hact, hfree, hlev⟩ := h.plays ht (State.runsFor_mono hr (by omega))
    exact ⟨u, hu, hact, hfree, hlev⟩
  case next =>
    obtain ⟨u, hu, hR, -, hfree, hr1, -⟩ := h.last hr
    obtain ⟨oe, -, hst, -, -⟩ := hR.step hr1
    refine ⟨u, u.edgeNext oe, hu, ?_, fun hp => State.edgeNext_act_of_retire hfree hp oe, fun w hw => ?_⟩
    · rw [Nat.add_comm, State.after_add _ _ hu, State.after_one hst]
    · obtain ⟨hstart, v, hv, hact, -⟩ := hR.next_of_pending hfree hw hr1
      cases hst.symm.trans hv
      exact ⟨hstart, hact⟩

/-! The start of an accepted command (R94). -/

/-- A word accepted in a running cycle: what the host presents is accepted. -/
theorem State.accepted_eq_singleton {s : State} {w : Word} (h : s.accepted = [w]) :
    s.acceptedWord s.access = some w := by
  unfold accepted at h
  split at h
  · exact Option.toList_eq_singleton_iff.1 h
  · cases h

/-- R94: the cycles left, one edge after a word was accepted, are those of the backlog, of which one is over. -/
theorem Running.remaining_of_accepts {s : State} (h : Running s) (ha : s.accepts = true) (oe : BitVec 32) :
    max 2 s.backlog = max (s.edgeNext oe).remaining 1 + 1 := by
  rw [h.remaining_next oe, State.backlog]
  cases hp : s.pend with
  | none =>
    simp only
    split
    · rename_i hf
      have := (free_iff h.wf h.registers).1 hf
      omega
    · omega
  | some w =>
    have hf : s.free = true := by simpa [State.accepts, State.pending, hp] using ha
    have hrem := (free_iff h.wf h.registers).1 hf
    have hd := duration_pos h.wf (h.registers.pendLegal w hp)
    simp only [hf, if_true]
    omega

/-- Settles O36: after the edge at which the word is accepted it waits through the cycles left of ACT
(`Running.waiting`), and they are the backlog's (`Running.remaining_of_accepts`). -/
theorem commandStartsAtTheLaterOfTwoCyclesAndTheBacklog :
    Obligations.CommandStartsAtTheLaterOfTwoCyclesAndTheBacklog := by
  unfold Obligations.CommandStartsAtTheLaterOfTwoCyclesAndTheBacklog
  intro s w n hl hi hacc hn hr
  have hR : Running s := ⟨hl, hi⟩
  have hword := State.accepted_eq_singleton hacc
  obtain ⟨oe, -, hst, hR', hr'⟩ := hR.step hr
  have hrem := hR.remaining_of_accepts (accepts_of_accepted hword) oe
  have hp : (s.edgeNext oe).pend = some w := by rw [edgeNext_pend', hword]
  have wait : ∀ j, 1 ≤ j → j ≤ n → ∃ u, s.after j = .next u ∧ Running u ∧ u.cfg = s.cfg ∧ u.pend = some w ∧
      (u.free = true ↔ j = n) := by
    intro j h1 hj
    obtain ⟨m, rfl⟩ := Nat.exists_eq_add_of_le' h1
    obtain ⟨u, hu, hRu, hcfg, hpu, hru⟩ := hR'.waiting hp (m := m) (by omega) (State.runsFor_mono hr' (by omega))
    refine ⟨u, (State.after_succ m hst).trans hu, hRu, by simpa using hcfg, hpu, ?_⟩
    rw [free_iff hRu.wf hRu.registers]
    omega
  refine ⟨?starts, fun j h1 hj => ?waits⟩
  case starts =>
    obtain ⟨u, hu, hRu, hcfg, hpu, hfree⟩ := wait n (by omega) le_rfl
    obtain ⟨u', hu', -, -, hr1⟩ := hR.after_runsFor hr
    cases hu.symm.trans hu'
    obtain ⟨hstart, v, hv, hact, hrv⟩ := hRu.next_of_pending (hfree.2 rfl) hpu hr1
    exact ⟨u, v, hu, hpu, hstart, (State.after_add n 1 hu).trans (State.after_one hv), hact, hcfg ▸ hrv⟩
  case waits =>
    obtain ⟨u, hu, -, -, hpu, hfree⟩ := wait j h1 hj.le
    exact ⟨u, hu, hpu, State.started_of_not_free (by simpa [hj.ne] using hfree)⟩

/-! The order of the commands (R95). -/

/-- R95 over one cycle: the waiting word, then the accepted one, are the one that starts and the one that waits next. -/
theorem Running.queue_step {s : State} {oe : BitVec 32} (h : Running s) (hs : s.slot = .edge false oe) :
    s.pend.toList ++ s.accepted = s.started ++ (s.edgeNext oe).pend.toList := by
  have hrun := h.running hs
  have hacc : s.accepted = (s.acceptedWord s.access).toList := if_pos hrun
  rw [hacc, edgeNext_pend']
  cases hf : s.free with
  | true =>
    rw [State.started_of_free hrun hf]
    cases s.acceptedWord s.access <;> rfl
  | false =>
    rw [State.started_of_not_free hf]
    cases ha : s.acceptedWord s.access with
    | none => simp
    | some v =>
      have hp : s.pend = none := by simpa [State.accepts, State.pending, hf] using accepts_of_accepted ha
      simp [hp]

/-- What is picked over a step and `k` more. -/
theorem State.collect_succ {s t : State} (pick : State → List Word) (k : Nat) (h : step s = .next t) :
    s.collect pick (k + 1) = pick s ++ t.collect pick k := by
  rw [collect, h]

/-- Settles O38, by induction over the cycles with `Running.queue_step`. -/
theorem commandsStartOnceInAcceptanceOrder : Obligations.CommandsStartOnceInAcceptanceOrder := by
  unfold Obligations.CommandsStartOnceInAcceptanceOrder
  intro s k hl hi hr
  have h : Running s := ⟨hl, hi⟩
  clear hl hi
  induction k generalizing s with
  | zero => exact ⟨s, rfl, List.append_nil _⟩
  | succ k ih =>
    obtain ⟨oe, hs, hst, hR, hr'⟩ := h.step hr
    obtain ⟨u, hu, hq⟩ := ih _ hr' hR
    refine ⟨u, (State.after_succ k hst).trans hu, ?_⟩
    rw [State.collect_succ _ k hst, State.collect_succ _ k hst, List.append_assoc, ← hq, ← List.append_assoc,
      ← List.append_assoc, h.queue_step hs]

/-! The host's slots while the queue is full (R46, R91). -/

/-- The host has no slot left, or its next one writes a legal word to CMD. -/
def State.QueueFed (s : State) : Prop :=
  s.host = [] ∨ ∃ addr v, s.access = some (.write addr 4 v) ∧ addr % 256 = 0 ∧ (decodeWord v).legal = true

theorem State.QueueFed.congr {s t : State} (hh : t.host = s.host) (hc : t.cfg = s.cfg) (h : s.QueueFed) :
    t.QueueFed := by
  unfold QueueFed
  rwa [hh, access_congr hh hc]

/-- R46: such a host's slots stand while the queue is full. -/
theorem State.QueueFed.hostAfter {s : State} (h : s.QueueFed) (ha : s.accepts = false) :
    s.hostAfter false = s.host := by
  obtain hh | ⟨addr, v, hx, h0, hv⟩ := h
  · simp [State.hostAfter, hh]
  · exact hostAfter_stalled (response_of_full hx h0 hv ha)

/-- R46, R91: a waiting word, and the host's slots behind it, through the cycles in which ACT is not free. -/
theorem Running.waiting_host {s : State} {w : Word} {m : Nat} (h : Running s) (hp : s.pend = some w) (hfed : s.QueueFed)
    (hm : m < max s.remaining 1) (hr : s.runsFor m) : ∃ u, s.after m = .next u ∧ Running u ∧ u.cfg = s.cfg ∧
      u.pend = some w ∧ u.remaining = s.remaining - m ∧ u.host = s.host := by
  induction m generalizing s with
  | zero => exact ⟨s, rfl, h, rfl, hp, rfl, rfl⟩
  | succ m ih =>
    obtain ⟨oe, -, hst, -, hr'⟩ := h.step hr
    obtain ⟨t, ht, hR, hcfg, hpt, hrem⟩ := h.waiting (m := 1) hp (by omega) (State.runsFor_mono hr (by omega))
    cases (State.after_one hst).symm.trans ht
    have hfull : s.accepts = false := accepts_eq_false (by simp [hp]) (h.not_free (by omega))
    have hhost : (s.edgeNext oe).host = s.host := by rw [State.edgeNext_host, hfed.hostAfter hfull]
    obtain ⟨u, hu, hRu, hcu, hpu, hru, hhu⟩ := ih hR hpt (hfed.congr hhost hcfg) (by omega) hr'
    exact ⟨u, (State.after_succ m hst).trans hu, hRu, hcu.trans hcfg, hpu, by omega, hhu.trans hhost⟩

/-- Settles O29: the write is at the head of the host's slots in every cycle of the active command, by
`Running.waiting_host`; it stalls as long as ACT is not free. -/
theorem stallLastsUntilTheActiveCommandFinishes : Obligations.StallLastsUntilTheActiveCommandFinishes := by
  unfold Obligations.StallLastsUntilTheActiveCommandFinishes
  intro s addr v hl hi hx h0 hv hp hf hr
  have h : Running s := ⟨hl, hi⟩
  obtain ⟨w, hw⟩ := Option.ne_none_iff_exists'.1 hp
  have hbusy : 1 < s.remaining := by
    by_contra hle
    rw [(free_iff h.wf hi).2 (by omega)] at hf
    cases hf
  have cycle : ∀ j, j < s.remaining → ∃ u, s.after j = .next u ∧ Running u ∧ u.pend = some w ∧
      u.remaining = s.remaining - j ∧ u.host = s.host ∧ u.access = some (.write addr 4 v) := by
    intro j hj
    obtain ⟨u, hu, hRu, hcu, hpu, hru, hhu⟩ := h.waiting_host (m := j) hw (.inr ⟨addr, v, hx, h0, hv⟩) (by omega)
      (State.runsFor_mono hr hj.le)
    exact ⟨u, hu, hRu, hpu, hru, hhu, (access_congr hhu hcu).trans hx⟩
  refine ⟨fun j hj => ?stalls, ?completes⟩
  case stalls =>
    obtain ⟨u, hu, hRu, hpu, hru, hhu, hxu⟩ := cycle j (by omega)
    have hfu := hRu.not_free (by omega)
    exact ⟨u, hu, hhu, response_of_full hxu h0 hv (accepts_eq_false (by simp [hpu]) hfu)⟩
  case completes =>
    obtain ⟨u, hu, hRu, -, hru, hhu, hxu⟩ := cycle (s.remaining - 1) (by omega)
    have hfu := (free_iff hRu.wf hRu.registers).2 (by omega)
    exact ⟨u, hu, hhu, hfu, response_of_accepts hxu h0 (accepts_eq_true (.inr hfu))⟩

/-! A host that writes no command (R89). -/

/-- The host's slots write no word to CMD. -/
def State.NoCmdAhead (s : State) : Prop := ∀ x ∈ s.host, cmdWord x = none

/-- Such a host presents no word to CMD. -/
theorem State.NoCmdAhead.cmdWord_access {s : State} (h : s.NoCmdAhead) : cmdWord s.access = none := by
  unfold access
  split
  · rename_i x rest hh
    split
    · exact h _ (by simp [hh])
    · rfl
  · rfl
  · rfl

/-- Nor does it after an edge. -/
theorem State.NoCmdAhead.edgeNext {s : State} (h : s.NoCmdAhead) (oe : BitVec 32) : (s.edgeNext oe).NoCmdAhead := by
  intro x hx
  rw [edgeNext_host, hostAfter] at hx
  split at hx
  · exact h x hx
  · exact h x (List.mem_of_mem_tail hx)

/-- R91: without a write to CMD, PEND is empty after an edge at which ACT is free or PEND was empty. -/
theorem State.NoCmdAhead.edgeNext_pend {s : State} (h : s.NoCmdAhead) (hp : s.free = true ∨ s.pend = none)
    (oe : BitVec 32) : (s.edgeNext oe).pend = none := by
  rw [edgeNext_pend', acceptedWord, h.cmdWord_access]
  rcases hp with hp | hp <;> simp [hp]

/-- An invariant of running edges that lets only legal words wait holds after every run without RST. -/
theorem State.after_of_invariant {P : State → Prop} (hstep : ∀ s oe, P s → P (s.edgeNext oe))
    (hlegal : ∀ s, P s → s.PendLegal) {s : State} {k : Nat} (hs : P s) (hl : s.live = true) (hr : s.runsFor k) :
    ∃ u, s.after k = .next u ∧ P u := by
  induction k generalizing s with
  | zero => exact ⟨s, rfl, hs⟩
  | succ k ih =>
    obtain ⟨oe, -, hst, hl', hr'⟩ := run_step hl (hlegal s hs) hr
    obtain ⟨u, hu, hPu⟩ := ih (hstep s oe hs) hl' hr'
    exact ⟨u, (after_succ k hst).trans hu, hPu⟩

/-- Nothing is pending, and the host writes no command. -/
def State.Unfed (s : State) : Prop := s.NoCmdAhead ∧ s.pend = none

theorem State.Unfed.pendLegal {s : State} (h : s.Unfed) : s.PendLegal := by
  intro w hw
  rw [h.2] at hw
  cases hw

theorem State.Unfed.edgeNext {s : State} (h : s.Unfed) (oe : BitVec 32) : (s.edgeNext oe).Unfed :=
  ⟨h.1.edgeNext oe, h.1.edgeNext_pend (.inr h.2) oe⟩

/-- R88: with no command active or pending, a running edge leaves ACT and the latches. -/
theorem State.edgeNext_of_idle {s : State} (ha : s.act = none) (hp : s.pend = none) (oe : BitVec 32) :
    (s.edgeNext oe).act = none ∧ (s.edgeNext oe).out = s.out := by
  have hq : s.sequenceNext = s.retire := by
    rw [sequenceNext_of_free (by rw [free, ha]), startNext, hp]
  simp [hq]

/-- R28: idle is without an active and a pending command. -/
theorem State.idle_iff (s : State) : s.idle = true ↔ s.act = none ∧ s.pend = none := by
  simp [idle, busy, active, pending]

/-- Settles O40, by the invariant that nothing is pending, no command is ahead and ACT and OUT stand. -/
theorem idleLpeHoldsEveryLatch : Obligations.IdleLpeHoldsEveryLatch := by
  unfold Obligations.IdleLpeHoldsEveryLatch
  intro s k hl hidle hhost hr
  obtain ⟨ha, hp⟩ := s.idle_iff.1 hidle
  have keeps : ∀ (t : State) (oe : BitVec 32), t.Unfed ∧ t.act = none ∧ t.out = s.out →
      (t.edgeNext oe).Unfed ∧ (t.edgeNext oe).act = none ∧ (t.edgeNext oe).out = s.out := by
    rintro t oe ⟨hu, hat, hot⟩
    obtain ⟨ha', ho'⟩ := State.edgeNext_of_idle hat hu.2 oe
    exact ⟨hu.edgeNext oe, ha', ho'.trans hot⟩
  obtain ⟨u, hu, ⟨-, hpu⟩, hau, hou⟩ := State.after_of_invariant keeps (fun t ht => ht.1.pendLegal)
    ⟨⟨hhost, hp⟩, ha, rfl⟩ hl hr
  exact ⟨u, hu, hou, hau, hpu⟩

/-! A program written back to back (R99). -/

/-- The edge at which a command enters ACT: its duration is to go, and its last cycle is that much on. -/
theorem Starting.enter {s : State} {i : Instr} (h : Starting s i) (hr : s.runsFor (1 + duration s.cfg i)) :
    ∃ oe, step s = .next (s.edgeNext oe) ∧ Running (s.edgeNext oe) ∧ (s.edgeNext oe).remaining = duration s.cfg i ∧
      (s.edgeNext oe).runsFor (duration s.cfg i - 1) ∧
      s.after (duration s.cfg i) = (s.edgeNext oe).after (duration s.cfg i - 1) := by
  have hR := h.running
  have hd := duration_pos hR.wf h.legal
  obtain ⟨w, hw, rfl⟩ := h.pending
  obtain ⟨oe, -, hst, hR', hr'⟩ := hR.step (k := duration s.cfg (decodeWord w)) (by rwa [Nat.add_comm])
  have hlast := State.after_succ (duration s.cfg (decodeWord w) - 1) hst
  rw [Nat.sub_add_cancel hd] at hlast
  exact ⟨oe, hst, hR', by simp [hR.remaining_next oe, h.free, hw], State.runsFor_mono hr' (by omega), hlast⟩

/-- The host's slots of a program of legal commands keep the queue fed. -/
theorem State.queueFed_of_program {s : State} {is : List Instr} (hc : s.cfg.wellFormed = true)
    (hhost : s.host = hostSlots s.cfg is) (hlegal : ∀ i ∈ is, i.legal = true) : s.QueueFed := by
  obtain ⟨-, -, -, -, -, -, hbase⟩ := (Config.wellFormed_iff _).1 hc
  cases is with
  | nil => exact .inl hhost
  | cons i rest =>
    refine .inr ⟨s.cfg.base, encode i, access_cmdSlot hhost, hbase, ?_⟩
    rw [decodeWord_encode]
    exact hlegal i (by simp)

/-- R83, R92: a command enters ACT at the edge at which the host writes the next one, which waits through its cycles and
enters ACT in its last one. -/
theorem Starting.next {s : State} {first i : Instr} {rest : List Instr} (h : Starting s first)
    (hhost : s.host = hostSlots s.cfg (i :: rest)) (hlegal : ∀ j ∈ i :: rest, j.legal = true)
    (hr : s.runsFor (1 + duration s.cfg first)) : ∃ u, s.after (duration s.cfg first) = .next u ∧ Starting u i ∧
      u.cfg = s.cfg ∧ u.host = hostSlots s.cfg rest ∧
      ∀ q, q < s.cfg.nPins → u.level q = levelAfter (segments s.cfg first) q (s.level q) := by
  have hd := duration_pos h.running.wf h.legal
  obtain ⟨-, -, -, -, -, -, hbase⟩ := (Config.wellFormed_iff _).1 h.running.wf
  obtain ⟨oe, -, hR', hrem, hr', hlast⟩ := h.enter hr
  have hx : s.access = some (.write s.cfg.base 4 (encode i)) := access_cmdSlot hhost
  have hi : (decodeWord (encode i)).legal = true := by
    rw [decodeWord_encode]
    exact hlegal i (by simp)
  have hroom := accepts_eq_true (.inr h.free)
  have hp : (s.edgeNext oe).pend = some (encode i) := by
    rw [edgeNext_pend', acceptedWord_of_accepts (cmd_write hx hbase).2 hi hroom]
  have hslots : (s.edgeNext oe).host = hostSlots s.cfg rest := by
    rw [State.edgeNext_host, State.hostAfter_completed (by simp [response_of_accepts hx hbase hroom]), hhost]
    rfl
  have hfed : (s.edgeNext oe).QueueFed := State.queueFed_of_program hR'.wf (is := rest)
    (by rw [hslots, State.edgeNext_cfg]) fun j hj => hlegal j (by simp [hj])
  obtain ⟨u, hu, hRu, hcu, hpu, -, hhu⟩ := hR'.waiting_host (m := duration s.cfg first - 1) hp hfed (by omega) hr'
  obtain ⟨u', hu', -, -, hfu, -, hlev⟩ := h.last hr
  cases (hlast.trans hu).symm.trans hu'
  exact ⟨u, hu', ⟨hRu.live, hRu.registers, hfu, encode i, hpu, decodeWord_encode i⟩, by simpa using hcu,
    hhu.trans hslots, hlev⟩

/-- R83, R89: a command after which the host writes none is followed by an idle cycle. -/
theorem Starting.last_then_idle {s : State} {i : Instr} (h : Starting s i) (hq : s.NoCmdAhead)
    (hr : s.runsFor (1 + duration s.cfg i)) : ∃ u, s.after (1 + duration s.cfg i) = .next u ∧ u.idle = true := by
  obtain ⟨oe, -, hR', -, hr', hlast⟩ := h.enter hr
  have unfed : (s.edgeNext oe).Unfed := ⟨hq.edgeNext oe, hq.edgeNext_pend (.inl h.free) oe⟩
  obtain ⟨u, hu, hunfed⟩ := State.after_of_invariant (fun _ oe ht => ht.edgeNext oe) (fun _ => State.Unfed.pendLegal)
    unfed hR'.live hr'
  obtain ⟨u', hu', hRu, -, hfu, hr1, -⟩ := h.last hr
  cases (hlast.trans hu).symm.trans hu'
  obtain ⟨oe', -, hst, -, -⟩ := hRu.step hr1
  have hact := State.edgeNext_act_of_retire hfu hunfed.2 oe'
  refine ⟨u.edgeNext oe', ?_, (State.idle_iff _).2 ⟨hact, (hunfed.edgeNext oe').2⟩⟩
  rw [Nat.add_comm, State.after_add _ _ hu', State.after_one hst]

/-- R83: from the next cycle on, every cycle of `segs` is active and shows them, over the latches' present levels. -/
def State.Plays (s : State) (segs : List Segment) : Prop :=
  ∀ t, t < totalCycles segs → ∃ u, s.after (1 + t) = .next u ∧ u.active = true ∧
    ∀ q, q < s.cfg.nPins → u.level q = levelAt segs t q (s.level q)

theorem Starting.plays_segments {s : State} {i : Instr} (h : Starting s i) (hr : s.runsFor (1 + duration s.cfg i)) :
    s.Plays (segments s.cfg i) := by
  intro t ht
  have ht' : t < duration s.cfg i := ht
  obtain ⟨u, hu, -, -, hact, -, hlev⟩ := h.plays ht' (State.runsFor_mono hr (by omega))
  exact ⟨u, hu, hact, hlev⟩

/-- Segments played, and then others from the state in which they leave the latches, are played as one list. -/
theorem State.Plays.append {s u : State} {l m : List Segment} (hl : s.Plays l) (hu : s.after (totalCycles l) = .next u)
    (hcu : u.cfg = s.cfg) (hlev : ∀ q, q < s.cfg.nPins → u.level q = levelAfter l q (s.level q)) (hm : u.Plays m) :
    s.Plays (l ++ m) := by
  intro t ht
  simp only [levelAt_append]
  by_cases hlt : t < totalCycles l
  · obtain ⟨v, hv, hact, hlv⟩ := hl t hlt
    exact ⟨v, hv, hact, fun q hq => (hlv q hq).trans (if_pos hlt).symm⟩
  · rw [totalCycles_append] at ht
    obtain ⟨v, hv, hact, hlv⟩ := hm (t - totalCycles l) (by omega)
    refine ⟨v, ?_, hact, fun q hq => ?_⟩
    · rw [show 1 + t = totalCycles l + (1 + (t - totalCycles l)) by omega, State.after_add _ _ hu, hv]
    · rw [hlv q (hcu ▸ hq), hlev q hq, if_neg hlt]

/-- R99: a program whose commands the host writes one after the other, by induction over them: the first one plays its
segments, and then the next one is starting (`Starting.next`), or the LPE is idle. -/
theorem Starting.program {s : State} {first : Instr} {others : List Instr} (h : Starting s first)
    (hhost : s.host = hostSlots s.cfg others) (hlegal : ∀ i ∈ others, i.legal = true)
    (hr : s.runsFor (1 + totalCycles (programSegments s.cfg (first :: others)))) :
    s.Plays (programSegments s.cfg (first :: others)) ∧
      ∃ u, s.after (1 + totalCycles (programSegments s.cfg (first :: others))) = .next u ∧ u.idle = true := by
  induction others generalizing s first with
  | nil =>
    simp only [programSegments, List.append_nil] at hr ⊢
    exact ⟨h.plays_segments hr, h.last_then_idle (by simp [State.NoCmdAhead, hhost, hostSlots]) hr⟩
  | cons i rest ih =>
    rw [programSegments, totalCycles_append, Nat.add_left_comm] at hr ⊢
    have hr1 : s.runsFor (1 + duration s.cfg first) := by
      rw [Nat.add_comm]
      exact State.runsFor_mono hr (Nat.add_le_add_left (Nat.le_add_right 1 _) _)
    obtain ⟨u, hu, hstart, hcu, hhu, hlev⟩ := h.next hhost hlegal hr1
    obtain ⟨u', hu', -, -, hru⟩ := h.running.after_runsFor hr
    cases hu.symm.trans hu'
    rw [← hcu] at hru hhu
    obtain ⟨hplays, v, hv, hidle⟩ := ih hstart hhu (fun j hj => hlegal j (by simp [hj])) hru
    rw [hcu] at hplays hv
    exact ⟨(h.plays_segments hr1).append hu hcu hlev hplays, v, (State.after_add _ _ hu).trans hv, hidle⟩

/-- Settles O42, by `Starting.program`. -/
theorem backToBackProgramPlaysWithoutGaps : Obligations.BackToBackProgramPlaysWithoutGaps := by
  unfold Obligations.BackToBackProgramPlaysWithoutGaps
  intro s first others total h hhost hlegal htotal hr
  subst htotal
  exact h.program hhost hlegal hr

end Sys2Proof.Machine
end

section
/-!
PROOFS. What a TX, and a BRESET behind it, put on their pin (41_led_protocol.md R101, R104, R107): the closed form of a
TX, the transitions that a list of segments makes, and a BRESET that starts where the TX ends.
-/
namespace Sys2Proof.Machine

/-! The closed form of a TX (R101). -/

/-- R101: the pin of a TX that enters ACT now is at its closed form in cycle `t`. -/
theorem Starting.level_tx {s : State} {pin : Pin} {color : Color} {t : Nat} (h : Starting s (.tx pin color))
    (hpin : pin.toNat < s.cfg.nPins) (ht : t < 24 * s.cfg.tBit) (hr : s.runsFor (1 + t)) :
    ∃ u, s.after (1 + t) = .next u ∧ u.level pin.toNat = txLevel s.cfg color t := by
  obtain ⟨u, hu, -, -, -, -, hlev⟩ := h.plays (by rw [duration_tx]; exact ht) hr
  exact ⟨u, hu, (hlev _ hpin).trans (levelAt_txSegments h.running.wf pin color 24 t _ ht)⟩

/-- Settles O33, by `Starting.level_tx`. -/
theorem txFollowsTheClosedForm : Obligations.TxFollowsTheClosedForm := by
  unfold Obligations.TxFollowsTheClosedForm
  intro s pin color t h hpin ht hr
  obtain ⟨u, hu, hlev⟩ := h.level_tx hpin ht hr
  exact ⟨u, hu, fun hhigh => hlev.trans (decide_eq_true hhigh),
    fun hlow => hlev.trans (decide_eq_false (Nat.not_lt.2 hlow))⟩

/-! The transitions of a pin (R104). -/

/-- How often the levels `f 0, f 1, ..., f k` change to `v`. -/
def changeCount (v : Bool) (f : Nat → Bool) (k : Nat) : Nat := Nat.count (fun j => f (j + 1) = v ∧ f j ≠ v) k

theorem changeCount_succ (v : Bool) (f : Nat → Bool) (k : Nat) : changeCount v f (k + 1) =
    (if f 1 = v ∧ f 0 ≠ v then 1 else 0) + changeCount v (fun j => f (j + 1)) k := by
  rw [changeCount, Nat.count_succ', Nat.add_comm]
  rfl

theorem changeCount_add (v : Bool) (f : Nat → Bool) (j k : Nat) : changeCount v f (j + k) =
    changeCount v f j + changeCount v (fun i => f (j + i)) k := Nat.count_add _ j k

/-- Levels that stand do not change. -/
theorem changeCount_of_held (v : Bool) {f : Nat → Bool} {k : Nat} (h : ∀ j, j ≤ k → f j = f 0) :
    changeCount v f k = 0 :=
  Nat.count_iff_forall_not.2 fun j hj hchange => hchange.2 ((h j hj.le).trans ((h (j + 1) hj).symm.trans hchange.1))

/-- The transitions of a latch over a run are the changes of the levels that it shows. -/
theorem Running.changesTo_eq {s : State} {p k : Nat} {f : Nat → Bool} (hR : Running s) (hr : s.runsFor k) (v : Bool)
    (h : ∀ j, j ≤ k → ∃ u, s.after j = .next u ∧ u.level p = f j) : s.changesTo v p k = changeCount v f k := by
  induction k generalizing s f with
  | zero => rfl
  | succ k ih =>
    obtain ⟨oe, -, hst, hR', hr'⟩ := hR.step hr
    obtain ⟨_, ⟨⟩, h0⟩ := h 0 (Nat.zero_le _)
    obtain ⟨_, h1', h1⟩ := h 1 (Nat.le_add_left 1 k)
    cases (State.after_one hst).symm.trans h1'
    have hrest := ih hR' hr' (f := fun j => f (j + 1)) fun j hj => by
      rw [← State.after_succ j hst]
      exact h (j + 1) (Nat.succ_le_succ hj)
    rw [State.changesTo, hst, changeCount_succ, ← h0, ← h1, ← hrest]

/-- The levels of latch `q` that segments drive, after the level `before` in which they find it. -/
def levelTrace (segs : List Segment) (q : Nat) (before : Bool) : Nat → Bool
  | 0 => before
  | t + 1 => levelAt segs t q before

/-- How many of the segments change latch `q` to `v`. -/
def transitions (v : Bool) (q : Nat) : List Segment → Bool → Nat
  | [], _ => 0
  | g :: rest, before =>
    (if levelAfter [g] q before = v ∧ before ≠ v then 1 else 0) + transitions v q rest (levelAfter [g] q before)

/-- A first segment holds its level for its cycles, and the others follow. -/
theorem levelAt_cons (g : Segment) (rest : List Segment) (t q : Nat) (b : Bool) : levelAt (g :: rest) t q b =
    if t < g.cycles then levelAfter [g] q b else levelAt rest (t - g.cycles) q (levelAfter [g] q b) := rfl

/-- Segments change a latch where one of them begins, and nowhere else. -/
theorem changeCount_levelTrace (v : Bool) (q : Nat) {segs : List Segment} (hpos : ∀ g ∈ segs, 1 ≤ g.cycles)
    (b : Bool) :
    changeCount v (levelTrace segs q b) (totalCycles segs) = transitions v q segs b := by
  induction segs generalizing b with
  | nil => rfl
  | cons g rest ih =>
    obtain ⟨c, hc⟩ := Nat.exists_eq_add_of_le' (hpos g (by simp))
    have held : ∀ t, t ≤ c → levelTrace (g :: rest) q b (t + 1) = levelAfter [g] q b := fun t ht => by
      rw [levelTrace, levelAt_cons, if_pos (by omega)]
    have shift : (fun t => levelTrace (g :: rest) q b (c + 1 + t)) = levelTrace rest q (levelAfter [g] q b) := by
      funext t
      cases t with
      | zero => exact held c le_rfl
      | succ t =>
        rw [← Nat.add_assoc, levelTrace, levelAt_cons, if_neg (by omega), show c + 1 + t - g.cycles = t by omega]
        rfl
    rw [totalCycles, hc, changeCount_add, shift, ih (fun x hx => hpos x (by simp [hx])), changeCount_succ,
      changeCount_of_held v fun t ht => (held t ht).trans (held 0 (Nat.zero_le c)).symm, Nat.add_zero,
      held 0 (Nat.zero_le c)]
    rfl

/-- R104 over a command that enters ACT now: its pin makes the transitions of its segments. -/
theorem Starting.changesTo_eq {s : State} {i : Instr} {q : Nat} (h : Starting s i) (hq : q < s.cfg.nPins)
    (hr : s.runsFor (duration s.cfg i)) (v : Bool) :
    s.changesTo v q (duration s.cfg i) = transitions v q (segments s.cfg i) (s.level q) := by
  rw [← changeCount_levelTrace v q (segments_pos h.running.wf h.legal).1]
  refine h.running.changesTo_eq hr v fun j hj => ?_
  cases j with
  | zero => exact ⟨s, rfl, rfl⟩
  | succ t =>
    obtain ⟨u, hu, -, -, -, -, hlev⟩ := h.plays (t := t) hj (State.runsFor_mono hr (by omega))
    exact ⟨u, by rw [Nat.add_comm, hu], hlev q hq⟩

section
variable (c : Config) (pin : Pin) (color : Color)

/-- R104: a high write and a low write for each bit. -/
theorem txSegments_length (n : Nat) : (txSegments c pin color n).length = 2 * n := by
  induction n with
  | zero => rfl
  | succ n ih => simp [txSegments, bitSegments, ih, Nat.mul_succ]

/-- A bit's two segments make a rise, unless the pin was high, and a fall, and leave the pin low. -/
theorem transitions_txSegments_succ (v : Bool) (n : Nat) (b : Bool) :
    transitions v pin.toNat (txSegments c pin color (n + 1)) b =
      (if v = true ∧ b = true then 0 else 1) + transitions v pin.toNat (txSegments c pin color n) false := by
  cases v <;> cases b <;> simp [txSegments, bitSegments, transitions, levelAfter]

/-- R104: from a low pin each bit makes one rise and one fall. -/
theorem transitions_txSegments_low (v : Bool) (n : Nat) :
    transitions v pin.toNat (txSegments c pin color n) false = n := by
  induction n with
  | zero => rfl
  | succ n ih => simp [transitions_txSegments_succ, ih, Nat.add_comm]

end

/-- Settles O34: the transitions are those of the 48 segments (`Starting.changesTo_eq`), and only the first bit depends
on the level before (`transitions_txSegments_succ`). -/
theorem txMakesFortyEightTransitionsFromLow : Obligations.TxMakesFortyEightTransitionsFromLow := by
  unfold Obligations.TxMakesFortyEightTransitionsFromLow
  intro s pin color h hpin hr
  have hd : duration s.cfg (.tx pin color) = 24 * s.cfg.tBit := duration_tx s.cfg pin color
  have count : ∀ v, s.changesTo v pin.toNat (24 * s.cfg.tBit) =
      (if v = true ∧ s.level pin.toNat = true then 0 else 1) + 23 := by
    intro v
    rw [← hd, h.changesTo_eq hpin (hd ▸ hr), segments, transitions_txSegments_succ, transitions_txSegments_low]
  refine ⟨txSegments_length s.cfg pin color 24, ?falls, fun hlow => ?low, fun hhigh => ?high⟩
  case falls => simp [count]
  case low => simp [count, hlow]
  case high => simp [count, hhigh]

/-! A BRESET behind a TX (R107). -/

/-- R83, R92: a word accepted at the edge at which a command enters ACT waits through that command's cycles and enters
ACT in its last one. -/
theorem Starting.next_of_accepted {s : State} {i : Instr} {w : Word} (h : Starting s i)
    (hw : s.acceptedWord s.access = some w) (hr : s.runsFor (1 + duration s.cfg i)) :
    ∃ u, s.after (duration s.cfg i) = .next u ∧ Starting u (decodeWord w) ∧ u.cfg = s.cfg := by
  have hd := duration_pos h.running.wf h.legal
  obtain ⟨oe, -, hR', hrem, hr', hlast⟩ := h.enter hr
  have hp : (s.edgeNext oe).pend = some w := by rw [edgeNext_pend', hw]
  obtain ⟨u, hu, hRu, hcu, hpu, -⟩ := hR'.waiting (m := duration s.cfg i - 1) hp (by omega) hr'
  obtain ⟨u', hu', -, -, hfu, -⟩ := h.last hr
  cases (hlast.trans hu).symm.trans hu'
  exact ⟨u, hu', ⟨hRu.live, hRu.registers, hfu, w, hpu, rfl⟩, by simpa using hcu⟩

/-- R91: a legal command that the host writes in a cycle in which ACT is free is accepted. -/
theorem acceptedWord_cmdSlot {s : State} {i : Instr} {rest : List (Option Access)} (hc : s.cfg.wellFormed = true)
    (hf : s.free = true) (hhost : s.host = cmdSlot s.cfg (encode i) :: rest) (hi : i.legal = true) :
    s.acceptedWord s.access = some (encode i) := by
  obtain ⟨-, -, -, -, -, -, hbase⟩ := (Config.wellFormed_iff _).1 hc
  exact acceptedWord_of_accepts (cmd_write (access_cmdSlot hhost) hbase).2 (by rwa [decodeWord_encode])
    (accepts_eq_true (.inr hf))

/-- R101 in cycle `r` of bit period `k`. -/
theorem txLevel_period (c : Config) (color : Color) (k : Nat) {r : Nat} (hr : r < c.tBit) :
    txLevel c color (k * c.tBit + r) = decide (r < if color.getLsbD (23 - k) then c.tLong else c.tShort) := by
  rw [txLevel, Nat.mul_comm, Nat.mul_add_mod, Nat.mod_eq_of_lt hr, Nat.mul_add_div (by omega), Nat.div_eq_of_lt hr,
    Nat.add_zero]

/-- R106: a BRESET that enters ACT now holds its pin low. -/
theorem Starting.level_breset {s : State} {pin : Pin} {t : Nat} (h : Starting s (.breset pin))
    (hpin : pin.toNat < s.cfg.nPins) (ht : t < s.cfg.tReset) (hr : s.runsFor (1 + t)) :
    ∃ u, s.after (1 + t) = .next u ∧ u.level pin.toNat = false := by
  obtain ⟨u, hu, -, -, -, -, hlev⟩ := h.plays (t := t) ht hr
  exact ⟨u, hu, by simp [hlev _ hpin, segments, levelAt, ht]⟩

section
variable {s : State} {pin : Pin} {color : Color} {r : Nat} (h : Starting s (.tx pin color))
  (hpin : pin.toNat < s.cfg.nPins)
include h hpin

/-- R101 in cycle `r` of a TX's last bit period. -/
theorem Starting.level_tx_last (hr : r < s.cfg.tBit) (hrun : s.runsFor (24 * s.cfg.tBit)) :
    ∃ u, s.after (1 + (23 * s.cfg.tBit + r)) = .next u ∧
      u.level pin.toNat = decide (r < if color.getLsbD 0 then s.cfg.tLong else s.cfg.tShort) := by
  obtain ⟨u, hu, hlev⟩ := h.level_tx hpin (t := 23 * s.cfg.tBit + r) (by omega) (State.runsFor_mono hrun (by omega))
  exact ⟨u, hu, hlev.trans (txLevel_period s.cfg color 23 hr)⟩

/-- A BRESET on the same pin, accepted at the edge at which a TX enters ACT, holds the pin low from the TX's end on. -/
theorem Starting.level_breset_behind_tx (hw : s.acceptedWord s.access = some (encode (.breset pin)))
    (hr : r < s.cfg.tReset) (hrun : s.runsFor (24 * s.cfg.tBit + (1 + r))) :
    ∃ u, s.after (1 + (24 * s.cfg.tBit + r)) = .next u ∧ u.level pin.toNat = false := by
  have hd : duration s.cfg (.tx pin color) = 24 * s.cfg.tBit := duration_tx s.cfg pin color
  obtain ⟨u, hu, hstart, hcu⟩ := h.next_of_accepted hw (State.runsFor_mono hrun (by omega))
  obtain ⟨u', hu', -, -, hru⟩ := h.running.after_runsFor hrun
  rw [hd] at hu
  cases hu.symm.trans hu'
  rw [decodeWord_encode] at hstart
  rw [← hcu] at hpin hr
  obtain ⟨v, hv, hlev⟩ := hstart.level_breset hpin hr hru
  exact ⟨v, by rw [Nat.add_left_comm, State.after_add _ _ hu, hv], hlev⟩

end

/-- Settles O35: up to the TX's end by its last bit period (`Starting.level_tx_last`), from there on by the BRESET
(`Starting.level_breset_behind_tx`). -/
theorem lowTimeOfATxAndItsBreset : Obligations.LowTimeOfATxAndItsBreset := by
  unfold Obligations.LowTimeOfATxAndItsBreset
  intro s pin color rest last h hpin hhost hlast hr
  obtain ⟨hshort, hlong, -, ⟨hreset, -⟩, -⟩ := (Config.wellFormed_iff _).1 h.running.wf
  have hrtx := State.runsFor_mono hr (Nat.le_add_right (24 * s.cfg.tBit) s.cfg.tReset)
  obtain ⟨hhigh, hpos, hlt⟩ : (if color.getLsbD 0 then s.cfg.tLong else s.cfg.tShort) = s.cfg.tBit - last ∧
      1 ≤ last ∧ last < s.cfg.tBit := by
    rw [hlast, Config.tBit]
    split <;> omega
  refine ⟨fun t hfrom hto => ?low, ?high⟩
  case low =>
    by_cases ht : t < 24 * s.cfg.tBit
    · obtain ⟨r, rfl⟩ := Nat.exists_eq_add_of_le (show 23 * s.cfg.tBit ≤ t by omega)
      obtain ⟨u, hu, hlev⟩ := h.level_tx_last hpin (r := r) (by omega) hrtx
      exact ⟨u, hu, hlev.trans (decide_eq_false (by omega))⟩
    · obtain ⟨r, rfl⟩ := Nat.exists_eq_add_of_le (Nat.le_of_not_lt ht)
      exact h.level_breset_behind_tx hpin (acceptedWord_cmdSlot h.running.wf h.free hhost rfl) (by omega)
        (State.runsFor_mono hr (by omega))
  case high =>
    have hcycle : 1 + (23 * s.cfg.tBit + (s.cfg.tBit - last - 1)) = 24 * s.cfg.tBit - last := by omega
    obtain ⟨u, hu, hlev⟩ := h.level_tx_last hpin (r := s.cfg.tBit - last - 1) (by omega) hrtx
    rw [hcycle] at hu
    exact ⟨u, hu, hlev.trans (decide_eq_true (by omega))⟩

end Sys2Proof.Machine
end

section
/-!
PROOFS. Pulses from the GPIO primitives (42_gpio_pulse.md R122): segments with one waveform, the pulse that a SETLVL and a
DELAY play, the PULSE line and a TX bit from primitives.
-/
namespace Sys2Proof.Machine

/-! Segments with one waveform. -/

/-- The segments of two lists last equally long and give every latch the same level in every cycle, from any level. -/
def SameWaveform (l m : List Segment) : Prop :=
  totalCycles l = totalCycles m ∧ ∀ t q before, levelAt l t q before = levelAt m t q before

/-- The level in which segments leave a latch is the one in the cycle after them. -/
theorem levelAt_totalCycles (l : List Segment) (q : Nat) (b : Bool) :
    levelAt l (totalCycles l) q b = levelAfter l q b := by
  have h := levelAt_append l [] (totalCycles l) q b
  rwa [List.append_nil, if_neg (Nat.lt_irrefl _)] at h

theorem SameWaveform.append {l l' m m' : List Segment} (h : SameWaveform l l') (h' : SameWaveform m m') :
    SameWaveform (l ++ m) (l' ++ m') := by
  obtain ⟨htotal, hlevel⟩ := h
  obtain ⟨htotal', hlevel'⟩ := h'
  have hafter : ∀ q b, levelAfter l q b = levelAfter l' q b := fun q b => by
    rw [← levelAt_totalCycles, ← levelAt_totalCycles, htotal, hlevel]
  refine ⟨by rw [totalCycles_append, totalCycles_append, htotal, htotal'], fun t q b => ?_⟩
  rw [levelAt_append, levelAt_append, htotal, hlevel, hlevel', hafter]

/-- R81: a pin-less segment prolongs the segment before it. -/
theorem sameWaveform_prolonged (drive : Option (Pin × Bool)) (m n : Nat) :
    SameWaveform [⟨drive, m⟩, ⟨none, n⟩] [⟨drive, m + n⟩] :=
  ⟨(Nat.add_assoc m n 0).symm, fun t q b => by simp only [levelAt, ite_self]⟩

theorem programSegments_append (c : Config) (is js : List Instr) :
    programSegments c (is ++ js) = programSegments c is ++ programSegments c js := by
  induction is with
  | nil => rfl
  | cons i is ih => simp only [List.cons_append, programSegments, ih, List.append_assoc]

/-! A pulse from primitives (R122). -/

/-- R122: a SETLVL, with a DELAY of the other cycles where there are any, is one segment of its pin. -/
theorem setlvl_delay_sameWaveform (c : Config) (pin : Pin) (lvl : Bool) {n : Nat} (hpos : 1 ≤ n) {longer : Prop}
    [Decidable longer] (hlonger : longer ↔ 2 ≤ n) {d : Count} (hd : d.toNat = n - 1) :
    SameWaveform (programSegments c ([.setlvl pin lvl] ++ if longer then [.delay d] else []))
      [⟨some (pin, lvl), n⟩] := by
  by_cases h : longer
  · have hn : n = 1 + max d.toNat 1 := by have := hlonger.1 h; omega
    rw [if_pos h, hn]
    exact sameWaveform_prolonged (some (pin, lvl)) 1 (max d.toNat 1)
  · obtain rfl : n = 1 := by have := mt hlonger.2 h; omega
    rw [if_neg h]
    exact ⟨rfl, fun _ _ _ => rfl⟩

/-- Settles O49: the commands of the line (`AsmLine.commands_pulse`) play one segment (`setlvl_delay_sameWaveform`). -/
theorem pulseHoldsItsPinForItsCycles : Obligations.PulseHoldsItsPinForItsCycles := by
  unfold Obligations.PulseHoldsItsPinForItsCycles
  intro c pin lvl cycles hpin hlvl hpos hmax
  obtain ⟨htotal, hlevel⟩ :=
    setlvl_delay_sameWaveform c (BitVec.ofNat 5 pin) (decide (lvl = 1)) hpos Iff.rfl
      (AsmLine.ofNat_payload_toNat (by omega))
  refine ⟨_, AsmLine.commands_pulse hpin hlvl hpos hmax, htotal, fun t q before ht => ?_⟩
  rw [hlevel]
  simp only [levelAt, if_pos ht, AsmLine.ofNat_pin_toNat hpin]

/-! A TX bit from primitives (R122). -/

/-- R84: the low phase of a bit lasts as long as the high phase of the other bit value. -/
theorem ldur_eq_hdur_not (c : Config) (b : Bool) : ldur c b = hdur c !b := by
  cases b <;> rfl

section
variable {c : Config} (hc : c.wellFormed = true)
include hc

/-- The high phase is one cycle only for a 0 with a short phase of one cycle. -/
theorem two_le_hdur_iff (b : Bool) : b = true ∨ 2 ≤ c.tShort ↔ 2 ≤ (hdur c b).toNat := by
  obtain ⟨hshort, hlong, -⟩ := (Config.wellFormed_iff c).1 hc
  rw [hdur_toNat hc]
  cases b
  case false => simp
  case true => simp; omega

theorem two_le_ldur_iff (b : Bool) : b = false ∨ 2 ≤ c.tShort ↔ 2 ≤ (ldur c b).toNat := by
  rw [ldur_eq_hdur_not, ← two_le_hdur_iff hc, Bool.not_eq_true']

/-- R122: each phase of a bit as a SETLVL and a DELAY, left out where the phase is one cycle. -/
theorem primitives_sameWaveform_bitSegments (pin : Pin) (color : Color) (i : Nat) :
    SameWaveform (programSegments c (([.setlvl pin true] ++
        if color.getLsbD i = true ∨ 2 ≤ c.tShort then [.delay (hdur c (color.getLsbD i) - 1)] else []) ++
      ([.setlvl pin false] ++
        if color.getLsbD i = false ∨ 2 ≤ c.tShort then [.delay (ldur c (color.getLsbD i) - 1)] else [])))
      (bitSegments c pin color i) := by
  obtain ⟨hhigh, hlow, -⟩ := phases hc (color.getLsbD i)
  rw [programSegments_append, bitSegments, ← hdur_toNat hc, ← ldur_toNat hc]
  exact .append
    (setlvl_delay_sameWaveform c pin true hhigh (two_le_hdur_iff hc _) (BitVec.toNat_sub_of_le hhigh))
    (setlvl_delay_sameWaveform c pin false hlow (two_le_ldur_iff hc _) (BitVec.toNat_sub_of_le hlow))

end

/-- Settles O50, by `primitives_sameWaveform_bitSegments`. -/
theorem primitivesReproduceATxBit : Obligations.PrimitivesReproduceATxBit := by
  unfold Obligations.PrimitivesReproduceATxBit
  rintro c pin color i is hc rfl
  rw [List.append_assoc]
  obtain ⟨htotal, hlevel⟩ := primitives_sameWaveform_bitSegments hc pin color i
  have hbit := bitSegments_total c pin color i
  exact ⟨htotal.trans hbit, hbit, fun t q before _ => hlevel t q before⟩

end Sys2Proof.Machine
end

section
/-!
PROOFS. What the LPE has in place of exceptions (60_exceptions.md): the slots without an edge (R152), and the recorded
faults of R141, which are those of the command that enters ACT and of the pad at the end of the cycle.
-/
namespace Sys2Proof.Machine

/-! The slots without an edge (R152). -/

namespace State

/-- R152: with the clock stopped the host sees no response (log 13). -/
theorem observeHost_clockStopped {s : State} (hw : s.wasReset = true) (hs : s.slot = .clockStopped) :
    s.observeHost = .ok none := by
  unfold observeHost known
  rw [hs, hw]
  cases s.access <;> rfl

/-- A slot in which power is lost is not known. -/
theorem known_of_powerLost {s : State} (hs : s.slot = .powerLost) : s.known = false := by
  unfold known
  rw [hs]

/-- No pin is observable in a slot that is not known. -/
theorem observePin_of_not_known {s : State} (h : s.known = false) (p : Nat) : s.observePin p = .error .unreset := by
  rw [observePin, h, if_neg Bool.false_ne_true]

end State

/-- Settles O18: the steps by `step_clockStopped` and `step_powerLost`, the observations by what `State.known` says of the
slot. -/
theorem stoppedClockHoldsEveryRegister : Obligations.StoppedClockHoldsEveryRegister := by
  unfold Obligations.StoppedClockHoldsEveryRegister
  exact fun s hc => ⟨
    fun hs => ⟨step_clockStopped hc hs, fun hw => State.observeHost_clockStopped hw hs⟩,
    fun hs => ⟨State.observePin_of_not_known (State.known_of_powerLost hs), _, step_powerLost hc hs, rfl, rfl⟩⟩

/-! The faults that a command records as it enters ACT (R141, R171, R172). -/

/-- R172: a command fails the valid-pin premise exactly when it drives a pin at or above `N_PINS`. -/
theorem pinValid_eq_false_iff (c : Config) (i : Instr) :
    i.pinValid c = false ↔ ∃ p, i.drivenPin = some p ∧ c.nPins ≤ p.toNat := by
  unfold Instr.pinValid
  cases i.drivenPin <;> simp

/-- R171: parameters miss the premise exactly when `T_RESET < T_RES_MIN`. -/
theorem Config.resetLongEnough_eq_false_iff (c : Config) : c.resetLongEnough = false ↔ c.tReset < c.tResMin := by
  rw [Config.resetLongEnough, decide_eq_false_iff_not, Nat.not_le]

/-- R141: a command that takes effect records PinOutOfRange exactly when it drives a pin at or above `N_PINS`. -/
theorem effect_pinOutOfRange_iff (i : Instr) (s : State) : (effect i s).faults.pinOutOfRange = true ↔
    s.faults.pinOutOfRange = true ∨ ∃ p, i.drivenPin = some p ∧ s.cfg.nPins ≤ p.toNat := by
  rw [effect_faults, Bool.or_eq_true, Bool.not_eq_true', pinValid_eq_false_iff]

/-- R141, R171: a command that takes effect records ResetTooShort exactly when it is a BRESET and `T_RESET < T_RES_MIN`. -/
theorem effect_resetTooShort_iff (i : Instr) (s : State) : (effect i s).faults.resetTooShort = true ↔
    s.faults.resetTooShort = true ∨ ∃ p, i = .breset p ∧ s.cfg.tReset < s.cfg.tResMin := by
  rw [effect_faults, Bool.or_eq_true, ← Config.resetLongEnough_eq_false_iff]
  cases i <;> simp

@[simp] theorem effect_pinNotOutput (i : Instr) (s : State) :
    (effect i s).faults.pinNotOutput = s.faults.pinNotOutput := by
  rw [effect_faults]

namespace State

/-- The fault records after the command that enters ACT at the edge that ends this cycle, if any, has made its own. -/
def faultsAfterStart (s : State) : ModelFaults :=
  match s.started with
  | w :: _ => (effect (decodeWord w) s).faults
  | [] => s.faults

theorem faultsAfterStart_of_none {s : State} (h : s.started = []) : s.faultsAfterStart = s.faults := by
  rw [faultsAfterStart, h]

theorem faultsAfterStart_of_some {s : State} {w : Word} (h : s.started = [w]) :
    s.faultsAfterStart = (effect (decodeWord w) s).faults := by
  rw [faultsAfterStart, h]

/-- R85, R90: at most one command enters ACT in a cycle. -/
theorem started_cases (s : State) : s.started = [] ∨ ∃ w, s.started = [w] := by
  unfold started
  cases s.running && s.free with
  | false => exact .inl rfl
  | true => cases s.pend with
    | none => exact .inl rfl
    | some w => exact .inr ⟨w, rfl⟩

theorem faultsAfterStart_pinOutOfRange_iff (s : State) : s.faultsAfterStart.pinOutOfRange = true ↔
    s.faults.pinOutOfRange = true ∨
      ∃ w ∈ s.started, ∃ p, (decodeWord w).drivenPin = some p ∧ s.cfg.nPins ≤ p.toNat := by
  obtain h | ⟨w, h⟩ := s.started_cases
  · simp [faultsAfterStart_of_none h, h]
  · simp [faultsAfterStart_of_some h, h, effect_pinOutOfRange_iff]

theorem faultsAfterStart_resetTooShort_iff (s : State) : s.faultsAfterStart.resetTooShort = true ↔
    s.faults.resetTooShort = true ∨
      ∃ w ∈ s.started, ∃ p, decodeWord w = .breset p ∧ s.cfg.tReset < s.cfg.tResMin := by
  obtain h | ⟨w, h⟩ := s.started_cases
  · simp [faultsAfterStart_of_none h, h]
  · simp [faultsAfterStart_of_some h, h, effect_resetTooShort_iff]

@[simp] theorem faultsAfterStart_pinNotOutput (s : State) :
    s.faultsAfterStart.pinNotOutput = s.faults.pinNotOutput := by
  obtain h | ⟨w, h⟩ := s.started_cases
  · rw [faultsAfterStart_of_none h]
  · rw [faultsAfterStart_of_some h, effect_pinNotOutput]

/-- Outside the cycles of a run no command enters ACT. -/
theorem started_of_not_running {s : State} (h : s.running = false) : s.started = [] := by
  simp [started, h]

/-- R90: what step 1 of an edge of a run makes of the fault records is what the started command does. -/
theorem sequence_faults {s t : State} (hr : s.running = true) (h : s.sequence = .next t) :
    t.faults = s.faultsAfterStart := by
  obtain ⟨a, ha, hfin, rfl⟩ | ⟨hf, hp, rfl⟩ | ⟨w, hf, hp, -, rfl⟩ := sequence_cases h
  · rw [faultsAfterStart_of_none (started_of_not_free (by simp [free, ha, hfin])), advance_faults]
  · rw [faultsAfterStart_of_none (by simp [started_of_free hr hf, hp]), retire_faults]
  · rw [faultsAfterStart_of_some (w := w) (by simp [started_of_free hr hf, hp]), effect_faults, effect_faults,
      takePend_faults, takePend_cfg]

/-! The fault that the pad records (R141, R170). -/

/-- A TX or BRESET runs on an existing pin without output-enable. -/
theorem padUndriven_iff (s : State) (oe : BitVec 32) : s.padUndriven oe = true ↔
    ∃ p cnt, p.toNat < s.cfg.nPins ∧ oe.getLsbD p.toNat = false ∧
      ((∃ color bit phase, s.act = some ⟨.tx p color bit phase, cnt⟩) ∨ s.act = some ⟨.breset p, cnt⟩) := by
  unfold padUndriven
  match s.act with
  | some ⟨.tx p color bit phase, cnt⟩ => simp [pinExists]
  | some ⟨.breset p, cnt⟩ => simp [pinExists]
  | some ⟨.setlvl p, cnt⟩ => simp
  | some ⟨.delay, cnt⟩ => simp
  | none => simp

/-- Does this slot, past the first RST, end in an edge with a TX or BRESET on a pin without output-enable (log 9)? -/
def padFault (s : State) : Bool :=
  match s.slot with
  | .edge _ oe => s.wasReset && s.padUndriven oe
  | .clockStopped => false
  | .powerLost => false

theorem padFault_of_edge {s : State} {rst : Bool} {oe : BitVec 32} (h : s.slot = .edge rst oe) :
    s.padFault = (s.wasReset && s.padUndriven oe) := by
  rw [padFault, h]

theorem padFault_iff (s : State) : s.padFault = true ↔
    s.wasReset = true ∧ ∃ rst oe, s.slot = .edge rst oe ∧ s.padUndriven oe = true := by
  unfold padFault
  cases s.slot <;> simp

end State

/-! The fault records after a step. -/

/-- R141: all that a step does to the fault records, in every slot. -/
theorem step_faults {s t : State} (h : step s = .next t) : t.faults =
    { s.faultsAfterStart with pinNotOutput := s.faults.pinNotOutput || s.padFault } := by
  have quiet (hr : s.running = false) : s.faultsAfterStart = s.faults :=
    State.faultsAfterStart_of_none (State.started_of_not_running hr)
  obtain ⟨hc, ⟨oe, hs, rfl⟩ | ⟨oe, u, hs, hw, hu, rfl⟩ | ⟨oe, hs, hw, -, rfl⟩ | ⟨hs, rfl⟩ | ⟨hs, rfl⟩⟩ := step_cases h
  case inl =>
    rw [State.endCycle_faults, State.padFault_of_edge hs, quiet (by simp [State.running, hs]),
      State.resetRegisters_faults]
  case inr.inl =>
    rw [State.endCycle_faults, State.padFault_of_edge hs, State.accessNext_faults,
      State.sequence_faults (by simp [State.running, hc, hw, hs]) hu, State.faultsAfterStart_pinNotOutput]
  case inr.inr.inl =>
    rw [State.endCycle_faults, State.padFault_of_edge hs, quiet (by simp [State.running, hw])]
  case inr.inr.inr.inl | inr.inr.inr.inr =>
    simp [quiet (by simp [State.running, hs]), State.padFault, hs]

/-- Settles O48, by `step_faults`: the first two records are those of the command that enters ACT, the third is the
pad's. -/
theorem faultsAreRecordedWhenTheirConditionHolds : Obligations.FaultsAreRecordedWhenTheirConditionHolds := by
  unfold Obligations.FaultsAreRecordedWhenTheirConditionHolds
  intro s t h
  rw [step_faults h]
  refine ⟨s.faultsAfterStart_pinOutOfRange_iff, s.faultsAfterStart_resetTooShort_iff, ?_⟩
  simp only [Bool.or_eq_true, State.padFault_iff, State.padUndriven_iff, exists_and_left]

end Sys2Proof.Machine
end

section
/-!
PROOFS. RST (70_reset_and_hazards.md R160 to R163): the state it leaves, the answer of its cycle, and the LPE before it.
-/
namespace Sys2Proof.Machine

/-! An edge with RST high (R160). -/

namespace State

/-- The end of a cycle changes no register that a read shows. -/
theorem readReg_endCycle (s : State) (r : Bool) (oe : BitVec 32) (t : State) (off : Nat) :
    (s.endCycle r oe t).readReg off = t.readReg off :=
  readReg_congr (by simp) (by simp) (by simp [pending]) (by simp [active]) (by simp) off

/-- R160: RST leaves the registers that show the parameters. -/
theorem readReg_parameter_of_reset (s : State) {off : Nat}
    (h : off = 0x0C ∨ off = 0x10 ∨ off = 0x14 ∨ off = 0x18) : s.resetRegisters.readReg off = s.readReg off := by
  obtain rfl | rfl | rfl | rfl := h <;> rfl

/-- R34: OUTLVL reads 0 after RST. -/
theorem readReg_outlvl_of_reset (s : State) : s.resetRegisters.readReg 0x08 = 0 := BitVec.zero_and

end State

/-- Settles O15, by `step_reset`: RST leaves the reset registers, and the end of the cycle changes none of them. -/
theorem rstTakesTheResetState : Obligations.RstTakesTheResetState := by
  unfold Obligations.RstTakesTheResetState
  intro s oe hc hs
  refine ⟨_, step_reset hc hs, by simp, by simp, by simp, by simp, ?status, ?outlvl, by simp, fun off hoff => ?parameter⟩
  case status => rw [State.readReg_endCycle, State.readReg_status_of_reset]
  case outlvl => rw [State.readReg_endCycle, State.readReg_outlvl_of_reset]
  case parameter => rw [State.readReg_endCycle, State.readReg_parameter_of_reset s hoff]

/-! The access of a reset cycle (R162). -/

namespace State

/-- R162: an answered read or fetch of a reset cycle returns 0. -/
theorem respondInReset_of_read {x : Access} (h : x.answered = true)
    (hx : ∃ addr n, x = .read addr n ∨ x = .fetch addr n) : respondInReset x = .data 0 := by
  obtain ⟨addr, n, rfl | rfl⟩ := hx
  · exact if_pos h
  · exact if_pos h

/-- R162: an answered write of a reset cycle completes. -/
theorem respondInReset_of_write {addr n : Nat} {v : Word} (h : (Access.write addr n v).answered = true) :
    respondInReset (.write addr n v) = .completed := if_pos h

/-- R46, R162: the host's slot of a reset cycle is over with it. -/
theorem hostAfter_of_reset (s : State) : s.hostAfter true = s.host.tail := by
  refine hostAfter_completed ?_
  unfold responseWith
  cases s.access <;> simp [respondInReset_ne_stalled]

end State

/-- R162: an access in a reset cycle is discarded. -/
theorem step_silentNow_of_reset {s : State} {oe : BitVec 32} (hc : s.cfg.wellFormed = true)
    (hs : s.slot = .edge true oe) : step s = step s.silentNow := by
  rw [step_reset hc hs, step_reset (s := s.silentNow) hc hs, State.endCycle_silentNow s.hostAfter_of_reset]
  rfl

/-- Settles O16: the answers are those of `State.respondInReset`, observed by `State.observeHost_edge`; the step is that
of the silent cycle by `step_silentNow_of_reset`. -/
theorem resetCycleAnswersAndDiscards : Obligations.ResetCycleAnswersAndDiscards := by
  unfold Obligations.ResetCycleAnswersAndDiscards
  intro s oe x hc hs hx
  have hresp : s.responseWith true = some (State.respondInReset x) := by rw [State.responseWith, hx]; rfl
  rw [hresp]
  refine ⟨fun h => ?error, fun h => ⟨fun addr n hr => ?read, ?write⟩, fun hw => ?observed, step_silentNow_of_reset hc hs⟩
  case error => rw [State.respondInReset_of_not_answered (by simp [h])]
  case read => rw [State.respondInReset_of_read h ⟨addr, n, hr⟩]
  case write =>
    rintro addr n v rfl
    rw [State.respondInReset_of_write h]
  case observed => rw [State.observeHost_edge hw hs, hresp]

/-! Before the first RST (R163). -/

namespace State

/-- No frame is observed to latch in a slot that is not known. -/
theorem observeLatch_of_not_known {s : State} (h : s.known = false) : s.observeLatch = .error .unreset := by
  rw [observeLatch, h, if_neg Bool.false_ne_true]

/-- No response is observable in a slot that is not known (log 11). -/
theorem observeHost_of_not_known {s : State} {x : Access} (h : s.known = false) (hx : s.access = some x) :
    s.observeHost = .error .unreset := by
  rw [observeHost, hx, h]
  rfl

end State

/-- Settles O17: no slot is known before the first RST, so no observation answers; the steps are those of
`step_unreset` and `step_reset`. -/
theorem nothingIsObservableBeforeTheFirstRst : Obligations.NothingIsObservableBeforeTheFirstRst := by
  unfold Obligations.NothingIsObservableBeforeTheFirstRst
  intro s hc hw
  have hk := State.known_of_unreset hw
  have hpin := State.observePin_of_not_known hk
  refine ⟨fun p => ⟨hpin p, State.observePad_error (hpin p)⟩, State.observeLatch_of_not_known hk,
    fun x => State.observeHost_of_not_known hk, fun oe hs => ?low, fun oe hs => ⟨_, step_reset hc hs, by simp⟩⟩
  case low =>
    rw [step_unreset hc hw hs, State.unresetEdge]
    refine ⟨fun x hx => by rw [hx], fun hx => ?_⟩
    rw [hx]
    exact ⟨_, rfl, by simp [hw]⟩

end Sys2Proof.Machine
end

section
/-!
PROOFS. The hazards of a host that comes late or writes too much (70_reset_and_hazards.md section 3): no underrun when the
next write comes in time (R176), the active command out of the host's reach (R174), the end of the last command (R179).
-/
namespace Sys2Proof.Machine

/-! The next write in time (R176). -/

/-- A host slot presents no legal word to CMD. -/
def NoLegalWord (x : Option Access) : Prop := ∀ v, cmdWord x = some v → (decodeWord v).legal = false

/-- R91: nothing is accepted from such a slot. -/
theorem NoLegalWord.acceptedWord {x : Option Access} (h : NoLegalWord x) (s : State) : s.acceptedWord x = none := by
  unfold State.acceptedWord
  split
  · rename_i v hv
    simp [h v hv]
  · rfl

namespace State

/-- The host's next slot is what it presents, or another device's (R40). -/
theorem access_of_host {s : State} {x : Option Access} {rest : List (Option Access)} (h : s.host = x :: rest) :
    s.access = x ∨ s.access = none := by
  unfold access
  rw [h]
  cases x with
  | none => exact .inr rfl
  | some a => cases ha : a.selects s.cfg <;> simp [ha]

/-- R46, R91: what is no write to CMD does not stall. -/
theorem respond_ne_stalled_of_not_cmd {s : State} {x : Access} (h : cmdWord (some x) = none) :
    s.respond x ≠ .stalled := by
  by_cases ha : x.answered = true
  · cases x with
    | read addr n => simp [respond, ha]
    | fetch addr n => simp [respond, ha]
    | write addr n v =>
      have h0 : addr % 256 ≠ 0 := by simpa [cmdWord, ha] using h
      simp [respond, ha, Access.offset, Access.addr, h0]
  · simp [respond_of_not_answered s ha]

/-- R46, R91: the host goes on after a cycle in which no legal word meets a full queue. -/
theorem hostAfter_of_progress {s : State}
    (h : ∀ v, cmdWord s.access = some v → (decodeWord v).legal = true → s.accepts = true) :
    s.hostAfter false = s.host.tail := by
  refine hostAfter_completed ?_
  cases hc : cmdWord s.access with
  | none =>
    cases hx : s.access with
    | none => simp [responseWith, hx]
    | some x => exact responseWith_ne_stalled hx (respond_ne_stalled_of_not_cmd (hx ▸ hc)) false
  | some v =>
    obtain ⟨addr, hx, h0⟩ := (cmdWord_eq_some_iff _ v).1 hc
    rw [(cmd_write hx h0).1]
    simpa [cmdResponse] using h v hc

/-- R90: a cycle in which the host presents no legal word to CMD accepts none, and the host's next slot follows. -/
theorem noLegalWord_cycle {s : State} {x : Option Access} {rest : List (Option Access)} (hhost : s.host = x :: rest)
    (hx : NoLegalWord x) : s.acceptedWord s.access = none ∧ s.hostAfter false = rest := by
  have hacc : NoLegalWord s.access := by
    rcases access_of_host hhost with h | h <;> rw [h]
    · exact hx
    · exact nofun
  refine ⟨hacc.acceptedWord s, ?_⟩
  rw [hostAfter_of_progress fun v hv hl => ?_, hhost, List.tail_cons]
  rw [hacc v hv] at hl
  cases hl

/-- The host presents `v` to CMD, no legal word before it, and its slot comes at the latest in the cycle before the last
cycle of what was accepted so far. -/
def NextInTime (s : State) (v : Word) : Prop :=
  ∃ between rest, s.host = between ++ cmdSlot s.cfg v :: rest ∧ (∀ x ∈ between, NoLegalWord x) ∧
    between.length + 2 ≤ s.backlog

end State

/-- R86: while ACT is not free, more than the current cycle of its command is left. -/
theorem Running.remaining_of_not_free {s : State} (h : Running s) (hf : s.free = false) : 1 < s.remaining := by
  have hfree := free_iff h.wf h.registers
  simpa [hf] using hfree

/-- R94: a cycle in which no word is accepted takes one cycle off the backlog. -/
theorem Running.backlog_next {s : State} (h : Running s) (hacc : s.acceptedWord s.access = none) (oe : BitVec 32) :
    (s.edgeNext oe).backlog = s.backlog - 1 := by
  have hpend : (s.edgeNext oe).pend = if s.free then none else s.pend := by rw [edgeNext_pend', hacc]
  unfold State.backlog
  rw [hpend, h.remaining_next oe]
  cases hf : s.free with
  | true =>
    have hlast := (free_iff h.wf h.registers).1 hf
    cases s.pend with
    | none => simp; omega
    | some w => simp; omega
  | false =>
    have hmore := h.remaining_of_not_free hf
    cases s.pend with
    | none => simp
    | some w => simp; omega

/-- R94: a word accepted before the last cycle of what is ahead of it finds, in the next cycle, only the command
directly ahead of it, with what is left of the backlog. -/
theorem Running.remaining_of_accepted {s : State} (h : Running s) (ha : s.accepts = true) (hb : 2 ≤ s.backlog)
    (oe : BitVec 32) : (s.edgeNext oe).remaining + 1 = s.backlog := by
  rw [h.remaining_next oe]
  unfold State.backlog at hb ⊢
  cases hp : s.pend with
  | none =>
    rw [hp] at hb
    have hf : s.free = false := h.not_free hb
    simp only [hf, Bool.false_eq_true, if_false] at hb ⊢
    omega
  | some w =>
    have hf : s.free = true := by simpa [State.accepts, State.pending, hp] using ha
    have hlast := (free_iff h.wf h.registers).1 hf
    simp only [hf, if_true]
    omega

/-- R91: the backlog of a full queue is at least three cycles. -/
theorem Running.backlog_of_full {s : State} (h : Running s) (ha : s.accepts = false) : 3 ≤ s.backlog := by
  have hf : s.free = false := by
    cases hf : s.free with
    | false => rfl
    | true => rw [accepts_eq_true (.inr hf)] at ha; cases ha
  cases hp : s.pend with
  | none => rw [accepts_eq_true (.inl hp)] at ha; cases ha
  | some w =>
    have hmore := h.remaining_of_not_free hf
    have hd := duration_pos h.wf (h.registers.pendLegal w hp)
    simp only [State.backlog, hp]
    omega

/-- R176 over one cycle: a write that comes in time is accepted, or it still comes in time. -/
theorem Running.nextInTime_step {s : State} {v : Word} (h : Running s) (hv : (decodeWord v).legal = true)
    (hn : s.NextInTime v) : s.acceptedWord s.access = some v ∨
      ∀ oe, (s.edgeNext oe).NextInTime v ∧ (s.edgeNext oe).backlog + 1 = s.backlog := by
  obtain ⟨between, rest, hhost, hquiet, hlen⟩ := hn
  obtain ⟨-, -, -, -, -, -, hbase⟩ := (Config.wellFormed_iff _).1 h.wf
  cases between with
  | nil =>
    have hx := access_cmdSlot hhost
    have hcmd := (cmd_write hx hbase).2
    cases ha : s.accepts with
    | true => exact .inl (acceptedWord_of_accepts hcmd hv ha)
    | false =>
      refine .inr fun oe => ?_
      have hb := h.backlog_next (by simp [State.acceptedWord, hcmd, ha]) oe
      have := h.backlog_of_full ha
      have hslots := State.hostAfter_stalled (response_of_full hx hbase hv ha)
      exact ⟨⟨[], rest, by simp [hslots, hhost], hquiet, by simp only [List.length_nil]; omega⟩, by omega⟩
  | cons x between =>
    refine .inr fun oe => ?_
    obtain ⟨hacc, hslots⟩ := State.noLegalWord_cycle hhost (hquiet x (by simp))
    have hb := h.backlog_next hacc oe
    rw [List.length_cons] at hlen
    exact ⟨⟨between, rest, by simp [hslots], fun y hy => hquiet y (by simp [hy]), by omega⟩, by omega⟩

/-- R176: a write that comes in time is accepted in a cycle before the last of the backlog, by induction over the
backlog. -/
theorem Running.accepted_in_time {s : State} {v : Word} {b : Nat} (h : Running s) (hv : (decodeWord v).legal = true)
    (hn : s.NextInTime v) (hb : s.backlog = b) (hr : s.runsFor b) : ∃ j u, s.after j = .next u ∧ Running u ∧
      u.acceptedWord u.access = some v ∧ 2 ≤ u.backlog ∧ j + u.backlog = b ∧ u.runsFor u.backlog := by
  induction b generalizing s with
  | zero =>
    obtain ⟨between, rest, -, -, hlen⟩ := hn
    omega
  | succ b ih =>
    rcases h.nextInTime_step hv hn with hacc | hnext
    · obtain ⟨between, rest, -, -, hlen⟩ := hn
      exact ⟨0, s, rfl, h, hacc, by omega, by omega, hb ▸ hr⟩
    · obtain ⟨oe, -, hst, hR, hr'⟩ := h.step hr
      obtain ⟨hn', hb'⟩ := hnext oe
      obtain ⟨j, u, hu, hRu, hacc, h2, hj, hru⟩ := ih hR hn' (by omega) hr'
      exact ⟨j + 1, u, (State.after_succ j hst).trans hu, hRu, hacc, h2, by omega, hru⟩

/-- R94: a word accepted before the last cycle of the backlog enters ACT in that last cycle. -/
theorem Running.starts_without_gap {s : State} {v : Word} (h : Running s) (hacc : s.acceptedWord s.access = some v)
    (hb : 2 ≤ s.backlog) (hr : s.runsFor s.backlog) :
    ∃ u, s.after (s.backlog - 1) = .next u ∧ u.remaining = 1 ∧ u.started = [v] := by
  obtain ⟨m, hm⟩ := Nat.exists_eq_add_of_le' hb
  rw [hm] at hr ⊢
  obtain ⟨oe, -, hst, hR, hr'⟩ := h.step (k := m + 1) hr
  have hrem := h.remaining_of_accepted (accepts_of_accepted hacc) hb oe
  have hp : (s.edgeNext oe).pend = some v := by rw [edgeNext_pend', hacc]
  obtain ⟨u, hu, hRu, -, hpu, hru⟩ := hR.waiting (m := m) hp (by omega) (State.runsFor_mono hr' (by omega))
  obtain ⟨u', hu', -, -, hr1⟩ := hR.after_runsFor hr'
  cases hu.symm.trans hu'
  have hone : u.remaining = 1 := by omega
  have hfree := (free_iff hRu.wf hRu.registers).2 hone.le
  exact ⟨u, (State.after_succ m hst).trans hu, hone, (hRu.next_of_pending hfree hpu hr1).1⟩

/-- Settles O37: the accepted word starts as O36 says; one cycle after its acceptance the next write is in time
(`State.NextInTime`), so it is accepted before the last cycle of the backlog (`Running.accepted_in_time`) and enters ACT
in it (`Running.starts_without_gap`). -/
theorem noUnderrunWhenTheNextWriteComesInTime : Obligations.NoUnderrunWhenTheNextWriteComesInTime := by
  unfold Obligations.NoUnderrunWhenTheNextWriteComesInTime
  intro s w v slot between rest n hl hi hacc hhost hquiet hv hlen hn hr
  have h : Running s := ⟨hl, hi⟩
  have hword := State.accepted_eq_singleton hacc
  have hroom := accepts_of_accepted hword
  obtain ⟨oe, -, hst, hR, hr'⟩ := h.step hr
  have hback : (s.edgeNext oe).backlog = n + duration s.cfg (decodeWord w) := by
    have := h.remaining_of_accepts hroom oe
    simp only [State.backlog, edgeNext_pend', hword, State.edgeNext_cfg] at this hn ⊢
    omega
  have hslots : s.hostAfter false = between ++ cmdSlot s.cfg v :: rest := by
    rw [State.hostAfter_of_progress fun _ _ _ => hroom, hhost, List.tail_cons]
  have hnext : (s.edgeNext oe).NextInTime v := ⟨between, rest, by simp [hslots], hquiet, by omega⟩
  obtain ⟨j, u, hu, hRu, haccu, h2, hj, hru⟩ := hR.accepted_in_time hv hnext hback hr'
  obtain ⟨x, hx, hone, hstart⟩ := hRu.starts_without_gap haccu h2 hru
  obtain ⟨oe', hs', -⟩ := hRu.step (k := u.backlog - 1) (State.runsFor_mono hru (by omega))
  refine ⟨?first, ⟨j + 1, u, by omega, (State.after_succ j hst).trans hu, ?accepted⟩, x, ?last, hone, hstart⟩
  case first =>
    obtain ⟨⟨u, -, hu, -, hstart, -⟩, -⟩ := commandStartsAtTheLaterOfTwoCyclesAndTheBacklog s w n hl hi hacc hn
      (State.runsFor_mono hr (by omega))
    exact ⟨u, hu, hstart⟩
  case accepted => rw [State.accepted, if_pos (hRu.running hs'), haccu, Option.toList_some]
  case last =>
    rw [show n + duration s.cfg (decodeWord w) = j + (u.backlog - 1) + 1 by omega, State.after_succ _ hst,
      State.after_add _ _ hu, hx]

/-! Two hosts and one active command (R174). -/

/-- R27: a command is active exactly while cycles of it are left. -/
theorem Running.active_iff {s : State} (h : Running s) : s.active = true ↔ 0 < s.remaining := by
  unfold State.active State.remaining
  cases ha : s.act with
  | none => simp
  | some a => exact iff_of_true rfl (remaining_pos (h.registers.active a ha))

/-- Two states agree in what the active command looks at: the parameters, the latches and ACT. -/
structure State.SameCommand (s t : State) : Prop where
  cfg : t.cfg = s.cfg
  out : t.out = s.out
  act : t.act = s.act

theorem State.SameCommand.remaining {s t : State} (h : s.SameCommand t) : t.remaining = s.remaining := by
  unfold State.remaining
  rw [h.act, h.cfg]

theorem State.SameCommand.load {s t : State} (h : s.SameCommand t) (k : ActKind) (n : Count) :
    (s.load k n).SameCommand (t.load k n) := ⟨h.cfg, h.out, rfl⟩

theorem State.SameCommand.setLevel {s t : State} (h : s.SameCommand t) (p : Pin) (v : Bool) :
    (s.setLevel p v).SameCommand (t.setLevel p v) := by
  refine ⟨by simp [h.cfg], ?_, by simp [h.act]⟩
  unfold State.setLevel
  rw [h.cfg]
  split
  · exact congrArg (State.withBit · p.toNat v) h.out
  · exact h.out

/-- R87: what an active command does at an edge depends on the parameters, the latches and ACT alone. -/
theorem State.SameCommand.advance {s t : State} (h : s.SameCommand t) (a : Active) :
    (s.advance a).SameCommand (t.advance a) := by
  unfold State.advance
  rw [h.cfg]
  split
  · exact h.load _ _
  · split
    · exact (h.load _ _).setLevel _ _
    · exact (h.load _ _).setLevel _ _
    · exact h
    · exact h
    · exact h

/-- R174 over one cycle that is not the command's last. -/
theorem Running.sameCommand_step {s t : State} (hs : Running s) (ht : Running t) (h : s.SameCommand t)
    (hrem : 1 < s.remaining) (oe oe' : BitVec 32) : (s.edgeNext oe).SameCommand (t.edgeNext oe') := by
  obtain ⟨a, ha⟩ := Option.isSome_iff_exists.1 (hs.active_iff.2 (by omega))
  have hsa := State.sequenceNext_of_busy ha (hs.not_free hrem)
  have hta := State.sequenceNext_of_busy (h.act.trans ha) (ht.not_free (h.remaining ▸ hrem))
  have hadv := h.advance a
  exact ⟨by simpa using h.cfg, by simpa [hsa, hta] using hadv.out, by simpa [hsa, hta] using hadv.act⟩

/-- R174 over the cycles of the active command, by induction over them. -/
theorem Running.sameCommand_after {s t : State} {k : Nat} (hs : Running s) (ht : Running t) (h : s.SameCommand t)
    (hk : k < s.remaining) (hr : s.runsFor k) (hr' : t.runsFor k) :
    ∃ u v, s.after k = .next u ∧ t.after k = .next v ∧ u.SameCommand v ∧ u.active = true := by
  induction k generalizing s t with
  | zero => exact ⟨s, t, rfl, rfl, h, hs.active_iff.2 hk⟩
  | succ k ih =>
    obtain ⟨oe, -, hst, hR, hrun⟩ := hs.step hr
    obtain ⟨oe', -, hst', hR', hrun'⟩ := ht.step hr'
    have hrem := hs.remaining_next oe
    rw [hs.not_free (by omega), if_neg Bool.false_ne_true] at hrem
    obtain ⟨u, v, hu, hv, hsame⟩ := ih hR hR' (hs.sameCommand_step ht h (by omega) oe oe') (by omega) hrun hrun'
    exact ⟨u, v, (State.after_succ k hst).trans hu, (State.after_succ k hst').trans hv, hsame⟩

/-- Settles O39, by `Running.sameCommand_after`: the run with the other host is one of a state that differs in the host's
slots alone. -/
theorem hostCannotDisturbTheActiveCommand : Obligations.HostCannotDisturbTheActiveCommand := by
  unfold Obligations.HostCannotDisturbTheActiveCommand
  intro s other k hl hi hk hr
  have hother : Running { s with host := other } := ⟨hl, .congr (s := s) rfl (fun _ => rfl) rfl rfl hi⟩
  obtain ⟨u, v, hu, hv, hsame, hact⟩ :=
    Running.sameCommand_after ⟨hl, hi⟩ hother ⟨rfl, rfl, rfl⟩ hk hr hr
  exact ⟨u, v, hu, hv, hsame.out.symm, hsame.act.symm, hact⟩

/-! The end of the last command (R179). -/

/-- R28: `STATUS[1:0]` reads 0 exactly with ACT and PEND empty. -/
theorem State.status_idle_iff (s : State) : (s.readReg 0x04).toNat % 4 = 0 ↔ s.act = none ∧ s.pend = none := by
  rw [← s.idle_iff, idle, Bool.not_eq_true', ← Bool.not_eq_true, s.busy_iff, not_not]

/-- R94: with nothing pending, what is ahead is the rest of the active command. -/
theorem State.Unfed.backlog {s : State} (h : s.Unfed) : s.backlog = s.remaining := by
  rw [State.backlog, h.2]

/-- R86, R88: without another command the cycles left count down to none. -/
theorem Running.remaining_after {s : State} {k : Nat} (h : Running s) (hu : s.Unfed) (hr : s.runsFor k) :
    ∃ u, s.after k = .next u ∧ Running u ∧ u.Unfed ∧ u.remaining = s.remaining - k := by
  induction k generalizing s with
  | zero => exact ⟨s, rfl, h, hu, rfl⟩
  | succ k ih =>
    obtain ⟨oe, -, hst, hR, hr'⟩ := h.step hr
    have hnext := hu.edgeNext oe
    have hback := h.backlog_next (by rw [State.acceptedWord, hu.1.cmdWord_access]) oe
    rw [hu.backlog, hnext.backlog] at hback
    obtain ⟨u, hu, hRu, hunfed, hrem⟩ := ih hR hnext hr'
    exact ⟨u, (State.after_succ k hst).trans hu, hRu, hunfed, by omega⟩

/-- Settles O41: STATUS by `State.status_idle_iff`; after `k` cycles nothing is pending and `k` cycles less are left
(`Running.remaining_after`), so ACT is empty exactly when none was left beyond them. -/
theorem statusTellsWhenTheLastCommandHasEnded : Obligations.StatusTellsWhenTheLastCommandHasEnded := by
  unfold Obligations.StatusTellsWhenTheLastCommandHasEnded
  intro s hl hi
  refine ⟨s.status_idle_iff, fun hp hhost k hr => ?_⟩
  obtain ⟨u, hu, hRu, ⟨-, hpu⟩, hrem⟩ := Running.remaining_after ⟨hl, hi⟩ ⟨hhost, hp⟩ hr
  have hact : u.act = none ↔ ¬ 0 < u.remaining := by
    rw [← hRu.active_iff, State.active, Bool.not_eq_true, Option.isSome_eq_false_iff, Option.isNone_iff_eq_none]
  refine ⟨u, hu, ?_⟩
  rw [u.status_idle_iff, hact, hrem]
  simp only [hpu, and_true]
  omega

end Sys2Proof.Machine
end
